-- ==== Sys2Proof/Word.lean ====
section
/-!
DEFINITION. The bit-vector types of the codec: what the spec treats as bits and nothing else
(`00_scope.md` R8, R9; `30_encoding.md` R60, R62, R73).
-/

namespace Sys2Proof

/-- `Byte = bits(8)` (R9). -/
abbrev Byte := BitVec 8

/-- The 29-bit frame identifier of the output side, format ID29 (R60). -/
abbrev Ident29 := BitVec 29

/-- The 32-bit identifier input of DECODE and DECOMPOSE, format ID32 (R62). -/
abbrev Ident32 := BitVec 32

/-- An IEEE-754 binary64 datum in its 64-bit interchange encoding (R9, R74, R110). -/
abbrev F64 := BitVec 64

/-- An IEEE-754 binary32 datum in its 32-bit interchange encoding (R9, R73). -/
abbrev F32 := BitVec 32

end Sys2Proof
end

