-- ==== Sys2Proof/Syntax.lean ====
section
/-!
DEFINITION. What can be asked of the block: commands and requests as the typed interface has them
(`10_state.md` R27), the physical request with its numbered fields (`30_encoding.md` R74), the
written form of a request (R78), and `Instr`, one constructor per row of `spec/opcode_table.json`.
-/

namespace Sys2Proof

/-- The eleven command kinds, the rows of the Command table (R63). -/
inductive CommandKind where
  | setCurrent | setRpm | setPosition | setKp | setKi | setKd
  | setPositionFloat | setVelocity | setAcceleration | setDeceleration | setStoredPosition
  deriving DecidableEq, Repr

/-- The six status kinds, the rows of the Status table (R64). -/
inductive StatusKind where
  | status | status2 | status3 | status4 | status5 | status6
  deriving DecidableEq, Repr

/-- A motor-control command with its parameters (R27). -/
inductive Command where
  | setCurrent (current : F64)
  | setRpm (rpm : F64)
  | setPosition (pos : F64)
  | setKp (kp : F64)
  | setKi (ki : F64)
  | setKd (kd : F64)
  | setPositionFloat (pos : F64) (vel : Option F64)
  | setVelocity (vel : F64)
  | setAcceleration (acc : F64)
  | setDeceleration (dec : F64)
  | setStoredPosition (pos : F64) (store : Bool)
  deriving DecidableEq, Repr

/-- One transaction at the typed interface (R27). `node` and `type_id` are mathematical integers,
so that a value out of range can be expressed and refused (R9). -/
inductive Request where
  | compose (node typeId : Int)
  | decompose (identifier : Ident32)
  | encode (node : Int) (cmd : Command)
  | decode (identifier : Ident32) (payload : List Byte)
  deriving DecidableEq, Repr

/-- A request as a hardware rendering carries it, in numbered fields (R74). `w` is
`REQ_INT_WIDTH`. A field that the `op` (or the `kind`) does not use is carried and not read.
`p0` and `p1` are the parameter fields in the order of the command's parameters; a payload's
length field and its bytes are the length and the bytes of the list. -/
structure PhysRequest (w : Nat) where
  op : BitVec 2
  node : BitVec w
  typeId : BitVec w
  identifier : Ident32
  kind : BitVec 8
  p0 : F64
  p1 : F64
  velPresent : BitVec 1
  store : BitVec 1
  payload : List Byte
  deriving DecidableEq, Repr

/-- The instructions: one constructor per row of the opcode table. A command row is an ENCODE
request of that kind. A status row is a DECODE request whose identifier holds that row's type id
in bits 15:8; `ignored` is bits 31:16 and `node` bits 7:0 (R62). `noRecord` is a DECODE request
with any other type id (R160). -/
inductive Instr where
  | compose (node typeId : Int)
  | decompose (identifier : Ident32)
  | setCurrent (node : Int) (current : F64)
  | setRpm (node : Int) (rpm : F64)
  | setPosition (node : Int) (pos : F64)
  | setKp (node : Int) (kp : F64)
  | setKi (node : Int) (ki : F64)
  | setKd (node : Int) (kd : F64)
  | setPositionFloat (node : Int) (pos : F64) (vel : Option F64)
  | setVelocity (node : Int) (vel : F64)
  | setAcceleration (node : Int) (acc : F64)
  | setDeceleration (node : Int) (dec : F64)
  | setStoredPosition (node : Int) (pos : F64) (store : Bool)
  | status (ignored : BitVec 16) (node : Byte) (payload : List Byte)
  | status2 (ignored : BitVec 16) (node : Byte) (payload : List Byte)
  | status3 (ignored : BitVec 16) (node : Byte) (payload : List Byte)
  | status4 (ignored : BitVec 16) (node : Byte) (payload : List Byte)
  | status5 (ignored : BitVec 16) (node : Byte) (payload : List Byte)
  | status6 (ignored : BitVec 16) (node : Byte) (payload : List Byte)
  | noRecord (ignored : BitVec 16) (typeId node : Byte) (payload : List Byte)
  deriving DecidableEq, Repr

/-! ### The written form of a request (R78) -/

/-- A `REAL` of the request syntax: a decimal literal `± digits · 10^exp10`, `nan`, `inf` or
`-inf` (R78). -/
inductive RealLit where
  | dec (neg : Bool) (digits : Nat) (exp10 : Int)
  | nan
  | inf (neg : Bool)
  deriving DecidableEq, Repr

/-- The argument names of the request syntax (R78). -/
inductive ArgName where
  | node | typeId | identifier | payload | current | rpm | pos | kp | ki | kd | vel | acc | dec
  | store
  deriving DecidableEq, Repr

/-- The names that open a call: `Compose`, `Decompose`, `Decode` and the eleven CMD names (R78). -/
inductive CallName where
  | compose | decompose | decode
  | cmd (kind : CommandKind)
  deriving DecidableEq, Repr

/-- The value written after `=`: a `REAL`, an `INT`, the `0|1` of `store`, a `HEX` or a `BYTES`
(R78). -/
inductive ArgVal where
  | real (r : RealLit)
  | int (n : Int)
  | flag (b : Bool)
  | hex (v : Nat)
  | bytes (bs : List Byte)
  deriving DecidableEq, Repr

/-- A written call: its name and its arguments in order (R78). -/
structure Call where
  name : CallName
  args : List (ArgName × ArgVal)
  deriving DecidableEq, Repr

end Sys2Proof
end

