-- ==== Sys2Proof/Machine/State.lean ====
section
/-!
DEFINITION. The responses of the block and its state.

The block's own state is one slot, `inflight` (`10_state.md` R29, R30): it has no registers, no
program counter, no flags, no memory that outlives a request (R20 to R26, R40). The two other
fields of `State` are the model's, not the spec's: they stand for the outside world, what the
requester and the reset line still have in store for the block (`inputs`) and what the block has
delivered so far (`responses`). No response depends on either (R20, R26).
-/

namespace Sys2Proof.Machine

/-! ### Responses (R28, R152, R153, R206) -/

/-- One decoded field: the raw integer, its divisor and the exact quotient (R152). -/
structure ScaledField where
  raw : Int
  div : Nat
  value : Rat
  deriving DecidableEq, Repr

/-- A decoded status frame, its source node and its fields in layout order (R153). -/
inductive TelemetryRecord where
  | status (node : Byte) (erpm current dutyCycle : ScaledField)
  | status2 (node : Byte) (ampHours ampHoursCharged : ScaledField)
  | status3 (node : Byte) (wattHours wattHoursCharged : ScaledField)
  | status4 (node : Byte) (tempFet tempMotor currentIn pidPos : ScaledField)
  | status5 (node : Byte) (tachometer voltageIn : ScaledField)
  | status6 (node : Byte) (adc1 adc2 adc3 ppm : ScaledField)
  deriving DecidableEq, Repr

/-- The four error kinds (R28, R200). -/
inductive ErrorKind where
  | rangeError
  | formatError
  | valueOutOfRange
  | illegalRequest
  deriving DecidableEq, Repr

/-- Which operand a RangeError names (R206). -/
inductive RangeOperand where
  | node
  | typeId
  deriving DecidableEq, Repr

/-- Which parameter a ValueOutOfRange names (R206). -/
inductive ParamField where
  | current | rpm | pos | kp | ki | kd | vel | acc | dec
  deriving DecidableEq, Repr

/-- What an error reports (R206). -/
inductive ErrorInfo where
  | rangeInfo (operand : RangeOperand) (value : Int)
  | formatInfo (typeId : Byte) (length required : Nat)
  | valueInfo (field : ParamField)
  | illegalInfo (kind : BitVec 8)
  deriving DecidableEq, Repr

/-- The one response a request gets (R28). -/
inductive Response where
  | ident (identifier : Ident29)
  | fields (node typeId : Byte)
  | frame (identifier : Ident29) (extended : Bool) (payload : List Byte)
  | record (rec : TelemetryRecord)
  | noRecord (node typeId : Byte)
  | error (kind : ErrorKind) (info : ErrorInfo)
  deriving DecidableEq, Repr

/-! ### The state -/

/-- What the outside does next: offer a typed request (R27), offer a physical request through a
port whose integer fields have `w` bits (R74), assert reset (R240), or nothing for the moment, so
that a request in flight is answered before what follows (the OPEN latency of R246). -/
inductive Input where
  | request (r : Request)
  | physical (w : Nat) (p : PhysRequest w)
  | reset
  | quiet
  deriving DecidableEq, Repr

/-- The machine: the transaction slot, and the outside world on its two sides. -/
structure State where
  /-- The request accepted and not yet answered (R29). The block's only state. -/
  inflight : Option Request
  /-- The model's own (DESIGN CHOICE, log entry 1): what the outside does from here on, first event
  first (R243). -/
  inputs : List Input
  /-- The model's own (DESIGN CHOICE, log entry 1): the responses delivered so far on this channel,
  oldest first (R51). -/
  responses : List Response
  deriving DecidableEq, Repr

/-- The machine right after reset (R30, R241): the slot is empty. Nothing waits and nothing has been
delivered. -/
def State.reset : State := { inflight := none, inputs := [], responses := [] }

/-- Why a step can stop the machine: never. The block has no traps, and every abnormal outcome is
an in-band `Error` response (R200, R206, R209), so there is no constructor. -/
inductive Fault where
  deriving DecidableEq, Repr

/-- Why a step can refuse. -/
inductive Refusal where
  /-- Raised by the dispatch for an instruction that has no meaning yet; safe, since a refused
  step proves nothing about the hardware. No arm answers with it. -/
  | notModelled (mnemonic : String)
  deriving DecidableEq, Repr

end Sys2Proof.Machine
end

