-- ==== Sys2Proof/Machine/Flags.lean ====
section
/-!
DEFINITION. The block has no flags and no condition codes (`10_state.md` R23): no operation computes
one. What the spec does call a flag is the extended-format field of an output frame. The response
codes of a physical rendering (`30_encoding.md` R75) and the data length code of an output frame
(R67) stand here too: they label a response and are no state.
-/

namespace Sys2Proof.Machine

/-- The extended-format flag of every output frame, fixed at true (R23, R67). -/
def extendedFormat : Bool := true

/-- The code of an error kind (R75, R200). -/
def errorCode : ErrorKind → BitVec 4
  | .rangeError => 8
  | .formatError => 9
  | .valueOutOfRange => 10
  | .illegalRequest => 11

/-- The code a physical rendering tags a response with; 5 to 7 and 12 to 15 are reserved and
never produced (R75). -/
def responseCode : Response → BitVec 4
  | .ident _ => 0
  | .fields _ _ => 1
  | .frame _ _ _ => 2
  | .record _ => 3
  | .noRecord _ _ => 4
  | .error k _ => errorCode k

/-- The data length code the transport gives an output frame: its payload's length (R67). -/
def dataLengthCode : Response → Option Nat
  | .frame _ _ payload => some payload.length
  | _ => none

/-- The frame the caller hands to the transport, if the response is one (R243). -/
def busFrame : Response → Option (Ident29 × List Byte)
  | .frame identifier _ payload => some (identifier, payload)
  | _ => none

/-- The bus log: exactly the `Frame` responses, in order (R243, `95_test_vectors.md` section 3). -/
def busLog (s : State) : List (Ident29 × List Byte) := s.responses.filterMap busFrame

end Sys2Proof.Machine
end

