-- ==== Sys2Proof/Machine/Numeric.lean ====
section
/-!
DEFINITION. Signed readings, byte order and IEEE-754 arithmetic, each written from the spec's own
definition: `00_scope.md` R10, R11, R13; `41_command_encoder.md` R111, R113; `30_encoding.md` R73.

Floating point is exact integer arithmetic with one rounding at the end. A finite datum is a sign
and a whole number of UNITS, one unit being the smallest subnormal of its format (2^-1074 for
binary64, 2^-149 for binary32). `roundMag` is the only place where anything is rounded.
-/

namespace Sys2Proof.Machine

/-! ### Two's complement (R10) -/

/-- `sint_N(b)`: `uint(b)` if `b[N-1] = 0`, else `uint(b) - 2^N` (R10). -/
def sint {N : Nat} (b : BitVec N) : Int :=
  if b.msb then (b.toNat : Int) - 2 ^ N else b.toNat

/-- `twos_N(n)`: the vector whose `uint` is `n mod 2^N` (R10). -/
def twos (N : Nat) (n : Int) : BitVec N :=
  BitVec.ofNat N (n % 2 ^ N).toNat

/-! ### Byte order (R11, R43) -/

/-- Byte `k` of the `n` bytes of `v`, counted from the most significant (R11). -/
def beByte (n : Nat) (v : BitVec (8 * n)) (k : Nat) : Byte :=
  v.extractLsb' (8 * (n - 1 - k)) 8

/-- `be_N(v)`: the bytes of `v`, most significant first (R11, R43). -/
def beBytes (n : Nat) (v : BitVec (8 * n)) : List Byte :=
  (List.range n).map (beByte n v)

/-- `be_val(p, off, n)`: the unsigned value of `p[off] .. p[off+n-1]` read most significant first
(R11). Every caller has checked the length first, so no offset at or beyond `len(p)` is read
(R41); the 0 stands for no byte of the spec (DESIGN CHOICE, log entry 8). -/
def beVal (p : List Byte) (off : Nat) : Nat → Nat
  | 0 => 0
  | n + 1 => beVal p off n * 256 + (p.getD (off + n) 0).toNat

/-! ### IEEE-754 formats (R73, R110) -/

/-- A binary interchange format: `prec` significand bits (the hidden one included) and `expBits`
exponent bits. -/
structure FloatFormat where
  prec : Nat
  expBits : Nat
  deriving DecidableEq, Repr

/-- binary64: 53 significand bits, 11 exponent bits (R110). -/
def binary64 : FloatFormat := ⟨53, 11⟩

/-- binary32: sign in bit 31, exponent in bits 30:23, trailing significand in bits 22:0 (R73). -/
def binary32 : FloatFormat := ⟨24, 8⟩

/-- The encoding of infinity without its sign bit: exponent field all ones, significand 0. -/
def FloatFormat.infMag (fmt : FloatFormat) : Nat := (2 ^ fmt.expBits - 1) * 2 ^ (fmt.prec - 1)

/-- One unit of the format is `2^-(fmt.unitExp)`: 1074 for binary64, 149 for binary32. -/
def FloatFormat.unitExp (fmt : FloatFormat) : Nat := 2 ^ (fmt.expBits - 1) - 1 + (fmt.prec - 2)

/-- How many units a finite encoding (without its sign bit) stands for: the trailing significand
when the exponent field is 0 (zero and subnormals), else the significand with its hidden bit,
shifted by one less than the exponent field. -/
def FloatFormat.units (fmt : FloatFormat) (mag : Nat) : Nat :=
  let e := mag / 2 ^ (fmt.prec - 1)
  let f := mag % 2 ^ (fmt.prec - 1)
  if e = 0 then f else (2 ^ (fmt.prec - 1) + f) * 2 ^ (e - 1)

/-- `num / den` rounded to the nearest integer, ties to even. -/
def rneDiv (num den : Nat) : Nat :=
  let k := num / den
  let r := num % den
  if 2 * r < den then k
  else if 2 * r > den then k + 1
  else k + k % 2

/-- How many low bits a magnitude of `whole` units loses to fit in `fmt.prec` bits. -/
def FloatFormat.dropBits (fmt : FloatFormat) (whole : Nat) : Nat :=
  if whole < 2 ^ fmt.prec then 0 else whole.log2 + 1 - fmt.prec

/-- roundTiesToEven of a magnitude of `num / den` units: the encoding, without its sign bit, of
the nearest datum of the format, infinity where the rounded magnitude exceeds the largest finite
one (R111, R113). A significand that rounds up to the next power of two carries into the exponent
field by the addition. -/
def FloatFormat.roundMag (fmt : FloatFormat) (num den : Nat) : Nat :=
  let q := fmt.dropBits (num / den)
  min fmt.infMag (q * 2 ^ (fmt.prec - 1) + rneDiv num (den * 2 ^ q))

/-! ### binary64 data (R9, R13, R110) -/

/-- The encoding of a binary64 datum without its sign bit. -/
def f64Mag (x : F64) : Nat := x.toNat % 2 ^ 63

/-- The sign bit of a binary64 datum: true for minus. -/
def f64Neg (x : F64) : Bool := x.msb

/-- Put a sign and a magnitude encoding together. -/
def f64Make (neg : Bool) (mag : Nat) : F64 := BitVec.ofBool neg ++ BitVec.ofNat 63 mag

/-- `isNaN` (R13). -/
def isNaN (x : F64) : Bool := binary64.infMag < f64Mag x

/-- `isInf` (R13). -/
def isInf (x : F64) : Bool := f64Mag x == binary64.infMag

/-- `isFinite` (R13). -/
def isFinite (x : F64) : Bool := f64Mag x < binary64.infMag

/-- The magnitude of a finite binary64 datum in units of 2^-1074. -/
def f64Units (x : F64) : Nat := binary64.units (f64Mag x)

/-- The real value of a finite binary64 datum, as an exact rational. -/
def f64Value (x : F64) : Rat :=
  (if f64Neg x then -(f64Units x : Rat) else (f64Units x : Rat)) / 2 ^ binary64.unitExp

/-- The IEEE comparison `v > 0`: false for NaN, both zeros and every negative datum, true for
`+infinity` (R123). -/
def isPositive (v : F64) : Bool := !isNaN v && !f64Neg v && f64Mag v != 0

/-- `mul64(x, F)`: the real product rounded to binary64, ties to even; `±infinity` when it
overflows (R111). It is only asked of a finite `x`; an infinity or a NaN is handed back. -/
def mul64 (x : F64) (F : Nat) : F64 :=
  if isFinite x then f64Make (f64Neg x) (binary64.roundMag (f64Units x * F) 1) else x

/-- `trunc(p)` of a finite `p`: its integer part, rounded toward zero (R111). -/
def trunc (p : F64) : Int :=
  let n : Int := (f64Units p / 2 ^ binary64.unitExp : Nat)
  if f64Neg p then -n else n

/-! ### binary32 data (R13, R73, R113) -/

/-- The canonical quiet NaN `0x7FC00000` (R7, R113). -/
def canonicalNaN32 : F32 := 0x7FC00000#32

/-- Put a sign and a magnitude encoding together: `bits32` of the datum (R73). -/
def f32Make (neg : Bool) (mag : Nat) : F32 := BitVec.ofBool neg ++ BitVec.ofNat 31 mag

/-- The encoding of a binary32 datum without its sign bit. -/
def f32Mag (y : F32) : Nat := y.toNat % 2 ^ 31

/-- `isInf` of a binary32 datum. -/
def isInf32 (y : F32) : Bool := f32Mag y == binary32.infMag

/-- The real value of a finite binary32 datum, as an exact rational. -/
def f32Value (y : F32) : Rat :=
  (if y.msb then -(binary32.units (f32Mag y) : Rat) else (binary32.units (f32Mag y) : Rat))
    / 2 ^ binary32.unitExp

/-- `rne32(x)`: binary64 to binary32, roundTiesToEven, as its interchange encoding. Infinities
keep their sign, a finite overflow gives infinity, and a zero keeps its sign (R113). A NaN never
comes here (R113 answers it first); it would give the canonical one. -/
def rne32 (x : F64) : F32 :=
  if isNaN x then canonicalNaN32
  else if isInf x then f32Make (f64Neg x) binary32.infMag
  else f32Make (f64Neg x)
    (binary32.roundMag (f64Units x) (2 ^ (binary64.unitExp - binary32.unitExp)))

/-! ### Rationals to binary64 -/

/-- The binary64 value nearest `num / den`, ties to even, with the given sign; used by `f64view`
(R152) and by the `REAL` literals of the request syntax (R78). -/
def f64Nearest (neg : Bool) (num den : Nat) : F64 :=
  f64Make neg (binary64.roundMag (num * 2 ^ binary64.unitExp) den)

end Sys2Proof.Machine
end

