-- ==== Sys2Proof/Machine/Tables.lean ====
section
/-!
DEFINITION. The fixed tables of the block (`10_state.md` R24: constants that no request reads or
changes): the type ids of `30_encoding.md` R63 and R64, the required lengths, the scale factors,
and the bit fields of a frame identifier (R60, R62). The two tables are kept apart: each has its
own kind type and its own lookup (R65).
-/

namespace Sys2Proof.Machine

/-- The type id of each command kind (R63). -/
def commandTypeId : CommandKind → Byte
  | .setCurrent => 1
  | .setRpm => 3
  | .setPosition => 4
  | .setKp => 64
  | .setKi => 65
  | .setKd => 66
  | .setPositionFloat => 68
  | .setVelocity => 69
  | .setAcceleration => 70
  | .setDeceleration => 71
  | .setStoredPosition => 72

/-- The Command table read from its type ids; `none` is a number outside the closed variant
(R63, R74). -/
def commandKindOf (t : Byte) : Option CommandKind :=
  match t.toNat with
  | 1 => some .setCurrent
  | 3 => some .setRpm
  | 4 => some .setPosition
  | 64 => some .setKp
  | 65 => some .setKi
  | 66 => some .setKd
  | 68 => some .setPositionFloat
  | 69 => some .setVelocity
  | 70 => some .setAcceleration
  | 71 => some .setDeceleration
  | 72 => some .setStoredPosition
  | _ => none

/-- The type id of each status kind (R64). -/
def statusTypeId : StatusKind → Byte
  | .status => 9
  | .status2 => 14
  | .status3 => 15
  | .status4 => 16
  | .status5 => 27
  | .status6 => 28

/-- The Status table read from its type ids; `none` is the no-record case (R64, R66). -/
def statusKindOf (t : Byte) : Option StatusKind :=
  match t.toNat with
  | 9 => some .status
  | 14 => some .status2
  | 15 => some .status3
  | 16 => some .status4
  | 27 => some .status5
  | 28 => some .status6
  | _ => none

/-- The required payload length of each status kind, in bytes (R64, R70). -/
def reqLen : StatusKind → Nat
  | .status => 8
  | .status2 => 8
  | .status3 => 8
  | .status4 => 8
  | .status5 => 6
  | .status6 => 8

/-- SetCurrent's factor, amperes to milliamps (R63, R71). -/
def factorSetCurrent : Nat := 1000

/-- SetPosition's factor, to micro-units (R63, R71). -/
def factorSetPosition : Nat := 1000000

/-- Bits 7:0 of a decode-side identifier (R62). -/
def nodeField (identifier : Ident32) : Byte := identifier.extractLsb' 0 8

/-- Bits 15:8 of a decode-side identifier (R62). -/
def typeIdField (identifier : Ident32) : Byte := identifier.extractLsb' 8 8

/-- Bits 31:16 of a decode-side identifier, which no response depends on (R62). -/
def ignoredField (identifier : Ident32) : BitVec 16 := identifier.extractLsb' 16 16

/-- The decode-side identifier with the given fields (R62). -/
def ident32 (ignored : BitVec 16) (typeId node : Byte) : Ident32 := ignored ++ typeId ++ node

/-- The output identifier with the given fields, bits 28:16 zero: `{13'b0, t, n}` (R60, R61). -/
def ident29 (typeId node : Byte) : Ident29 := (0 : BitVec 13) ++ typeId ++ node

end Sys2Proof.Machine
end

