-- ==== Sys2Proof/Machine/Ops.lean ====
section
/-!
DEFINITION. The named operations every meaning is made of: the two payload address spaces
(`20_memory.md` R40 to R45), the identifier model (`40_identifier.md`), raising an error
(`60_exceptions.md` R206), delivering a response and taking a reset (`10_state.md` R29,
`70_reset_and_hazards.md` R240).
-/

namespace Sys2Proof.Machine

/-! ### The output payload of an ENCODE request (R40, R42)

It lives for one request only, so it is no field of `State`. It is a list of (offset, byte) pairs in
one canonical form, offsets strictly rising; an offset nothing has written reads as no value. -/

/-- The output payload under construction. -/
abbrev Memory := List Host.Cell

/-- The canonical form: offsets strictly rising. An unlisted offset has no value, so no entry can
equal what an unlisted offset reads as. -/
abbrev Memory.wf (m : Memory) : Prop := m.Pairwise (fun c d => c.1 < d.1)

/-- The byte at an offset; `none` where nothing has been written. -/
def readByte : Memory → Nat → Option Byte
  | [], _ => none
  | (a, b) :: m, off => if a = off then some b else readByte m off

/-- Write one byte, keeping the canonical form. -/
def writeByte : Memory → Nat → Byte → Memory
  | [], off, v => [(off, v)]
  | (a, b) :: m, off, v =>
    if off < a then (off, v) :: (a, b) :: m
    else if off = a then (off, v) :: m
    else (a, b) :: writeByte m off v

/-- Write consecutive bytes from an offset upward. -/
def writeBytes : Memory → Nat → List Byte → Memory
  | m, _, [] => m
  | m, off, v :: vs => writeBytes (writeByte m off v) (off + 1) vs

/-- `MemWrite(off, n, v)`: the `8n`-bit vector `v` to offsets `off .. off+n-1`, most significant
byte at `off` (R12, R43). -/
def memWrite (m : Memory) (off n : Nat) (v : BitVec (8 * n)) : Memory :=
  writeBytes m off (beBytes n v)

/-- The finished payload: the bytes in offset order. -/
def payloadBytes (m : Memory) : List Byte := m.map Prod.snd

/-! ### The input payload of a DECODE request (R40, R41) -/

/-- `MemRead(off, n)`: the `8n`-bit vector whose unsigned value is `be_val(payload, off, n)`
(R12). -/
def memRead (p : List Byte) (off n : Nat) : BitVec (8 * n) := BitVec.ofNat (8 * n) (beVal p off n)

/-! ### Errors (R206) -/

/-- What an error response carries: a kind and its info (R206). -/
structure ErrorReport where
  kind : ErrorKind
  info : ErrorInfo
  deriving DecidableEq, Repr

/-- The rest of a computation that may `raise` (R12). -/
abbrev Result := Except ErrorReport

/-- `raise RangeError(operand, value)` (R201, R206). -/
def raiseRange {α : Type} (operand : RangeOperand) (value : Int) : Result α :=
  .error ⟨.rangeError, .rangeInfo operand value⟩

/-- `raise FormatError(type_id, length, required)` (R202, R206). -/
def raiseFormat {α : Type} (typeId : Byte) (length required : Nat) : Result α :=
  .error ⟨.formatError, .formatInfo typeId length required⟩

/-- `raise ValueOutOfRange(field)` (R203, R206). -/
def raiseValue {α : Type} (field : ParamField) : Result α :=
  .error ⟨.valueOutOfRange, .valueInfo field⟩

/-- The IllegalRequest response of the physical request decoder (R204, R206). -/
def illegalResponse (kind : BitVec 8) : Response :=
  .error .illegalRequest (.illegalInfo kind)

/-! ### The identifier model (R100, R103) -/

/-- Inside [0, 255] (R7 `NODE_RANGE`, `TYPE_RANGE`). -/
def inByteRange (n : Int) : Bool := decide (0 ≤ n) && decide (n ≤ 255)

/-- The COMPOSE computation: both range checks, `node` first, then `{13'b0, t, n}` (R100, R207).
ENCODE uses the same computation (R103). -/
def composeIdent (node typeId : Int) : Result Ident29 :=
  if !inByteRange node then raiseRange .node node
  else if !inByteRange typeId then raiseRange .typeId typeId
  else .ok (ident29 (twos 8 typeId) (twos 8 node))

/-! ### Delivering a response (R28, R29) -/

/-- A response whatever the computation did: its result, or the error it raised (R12, R206). -/
def resultResponse : Result Response → Response
  | .ok r => r
  | .error e => .error e.kind e.info

/-- Deliver a response: it goes out after all earlier ones and the slot is emptied (R29, R51). -/
def deliver (r : Response) (s : State) : State :=
  { s with inflight := none, responses := s.responses ++ [r] }

/-- Answer the request with the outcome of its computation. This is the end of every request,
error or not: an error saves nothing and changes nothing else (R206, R209). -/
def answer (c : Result Response) (s : State) : Host.Outcome State Fault Refusal :=
  .next (deliver (resultResponse c) s)

/-! ### Accepting a request, and reset (R29, R240) -/

/-- Accept a request: the slot holds it until its response is delivered (R29). -/
def accept (r : Request) (s : State) : State := { s with inflight := some r }

/-- Reset is asserted: the slot is emptied, and no response is ever delivered for a request that
was in it (R240). What was delivered before stays with the requester. -/
def takeReset (s : State) : State := { s with inflight := none }

end Sys2Proof.Machine
end

