-- ==== Sys2Proof/Machine/Operands.lean ====
section
/-!
DEFINITION. Operand assembly: the four paths from a command parameter to its payload bytes
(`30_encoding.md` R71, `41_command_encoder.md` R111 to R114) and the one path from payload bytes to
a status field (R72, `42_telemetry_decoder.md` R151, R152).
-/

namespace Sys2Proof.Machine

/-! ### Command parameters -/

/-- ScaledInt32 (R111): NaN and infinities raise, the binary64 product that overflows raises, the
integer part is taken toward zero, and the range is checked on that integer. -/
def scaledInt32 (x : F64) (F : Nat) (field : ParamField) : Result (BitVec 32) :=
  if isNaN x || isInf x then raiseValue field
  else if isInf (mul64 x F) then raiseValue field
  else if trunc (mul64 x F) < -2 ^ 31 ∨ trunc (mul64 x F) > 2 ^ 31 - 1 then raiseValue field
  else .ok (twos 32 (trunc (mul64 x F)))

/-- RawInt32 (R112): ScaledInt32 with factor 1. -/
def rawInt32 (x : F64) (field : ParamField) : Result (BitVec 32) := scaledInt32 x 1 field

/-- Float32 (R113): a NaN gives the canonical one; a finite value whose rounding is infinite
raises; everything else, infinities included, is converted. -/
def float32 (x : F64) (field : ParamField) : Result F32 :=
  if isNaN x then .ok canonicalNaN32
  else if isInf32 (rne32 x) && isFinite x then raiseValue field
  else .ok (rne32 x)

/-- StoreByte (R114). -/
def storeByte (b : Bool) : BitVec 8 := if b then 0x01 else 0x00

/-- The velocity SetPositionFloat appends: the supplied one when it is strictly positive, tested
on the binary64 input (R123). -/
def positiveVelocity : Option F64 → Option F64
  | some v => if isPositive v then some v else none
  | none => none

/-! ### Status fields -/

/-- `FieldInt(off, W)`: the signed big-endian field of `W` bits at byte offset `off` (R151). -/
def fieldInt (p : List Byte) (off W : Nat) : Int := sint (memRead p off (W / 8))

/-- `Scale(off, W, d)`: the field with its divisor and the exact quotient, nothing rounded
(R152). -/
def scale (p : List Byte) (off W d : Nat) : ScaledField :=
  { raw := fieldInt p off W, div := d, value := (fieldInt p off W : Rat) / (d : Rat) }

/-- `f64view(field)`: the binary64 value nearest `raw / div`, ties to even (R152). -/
def f64view (f : ScaledField) : F64 := f64Nearest (decide (f.raw < 0)) f.raw.natAbs f.div

end Sys2Proof.Machine
end

