-- ==== Sys2Proof/Machine/Encoder.lean ====
section
/-!
DEFINITION. The command encoder (`41_command_encoder.md`): the ENCODE dispatch (R115) and one meaning
per command kind (R117 to R127). Each payload is built with `memWrite` from offset 0 upward, and
the first field that raises ends the request (R115, R207). No parameter's plausibility is checked
(R116).
-/

namespace Sys2Proof.Machine

/-- ENCODE (R115): the COMPOSE computation on the request's node and the kind's type id first
(R103, R207), then the payload, then the frame with the extended flag set (R67). -/
def encodeFrame (node : Int) (k : CommandKind) (body : Result Memory) : Result Response :=
  match composeIdent node (commandTypeId k).toNat with
  | .error e => .error e
  | .ok identifier =>
    match body with
    | .error e => .error e
    | .ok m => .ok (.frame identifier extendedFormat (payloadBytes m))

/-- The payload format P_I32: four bytes of a signed integer (R68). -/
def bodyI32 (n : Result (BitVec 32)) : Result Memory :=
  n.map (fun v => memWrite [] 0 4 v)

/-- The payload format P_F32: four bytes of a binary32 datum (R68, R73). -/
def bodyF32 (y : Result F32) : Result Memory :=
  y.map (fun v => memWrite [] 0 4 v)

/-- SetPositionFloat's payload: P_F32, or P_F32F32 when the velocity is supplied and strictly
positive; the position is converted first (R68, R70, R123). -/
def bodyPositionFloat (pos : F64) (vel : Option F64) : Result Memory :=
  match float32 pos .pos with
  | .error e => .error e
  | .ok y =>
    match positiveVelocity vel with
    | none => .ok (memWrite [] 0 4 y)
    | some v => (float32 v .vel).map (fun z => memWrite (memWrite [] 0 4 y) 4 4 z)

/-- SetStoredPosition's payload P_F32I8: the position, then the store flag (R68, R127). -/
def bodyStoredPosition (pos : F64) (store : Bool) : Result Memory :=
  (float32 pos .pos).map (fun y => memWrite (memWrite [] 0 4 y) 4 1 (storeByte store))

/-- SetCurrent (R117). -/
def execSetCurrent (node : Int) (current : F64) (s : State) : Host.Outcome State Fault Refusal :=
  answer (encodeFrame node .setCurrent (bodyI32 (scaledInt32 current factorSetCurrent .current))) s

/-- SetRpm (R118). -/
def execSetRpm (node : Int) (rpm : F64) (s : State) : Host.Outcome State Fault Refusal :=
  answer (encodeFrame node .setRpm (bodyI32 (rawInt32 rpm .rpm))) s

/-- SetPosition (R119); a command of its own, never mapped onto SetPositionFloat (R128). -/
def execSetPosition (node : Int) (pos : F64) (s : State) : Host.Outcome State Fault Refusal :=
  answer (encodeFrame node .setPosition (bodyI32 (scaledInt32 pos factorSetPosition .pos))) s

/-- SetKp (R120). -/
def execSetKp (node : Int) (kp : F64) (s : State) : Host.Outcome State Fault Refusal :=
  answer (encodeFrame node .setKp (bodyF32 (float32 kp .kp))) s

/-- SetKi (R121). -/
def execSetKi (node : Int) (ki : F64) (s : State) : Host.Outcome State Fault Refusal :=
  answer (encodeFrame node .setKi (bodyF32 (float32 ki .ki))) s

/-- SetKd (R122). -/
def execSetKd (node : Int) (kd : F64) (s : State) : Host.Outcome State Fault Refusal :=
  answer (encodeFrame node .setKd (bodyF32 (float32 kd .kd))) s

/-- SetPositionFloat (R123). -/
def execSetPositionFloat (node : Int) (pos : F64) (vel : Option F64) (s : State) :
    Host.Outcome State Fault Refusal :=
  answer (encodeFrame node .setPositionFloat (bodyPositionFloat pos vel)) s

/-- SetVelocity (R124). -/
def execSetVelocity (node : Int) (vel : F64) (s : State) : Host.Outcome State Fault Refusal :=
  answer (encodeFrame node .setVelocity (bodyF32 (float32 vel .vel))) s

/-- SetAcceleration (R125). -/
def execSetAcceleration (node : Int) (acc : F64) (s : State) : Host.Outcome State Fault Refusal :=
  answer (encodeFrame node .setAcceleration (bodyF32 (float32 acc .acc))) s

/-- SetDeceleration (R126). -/
def execSetDeceleration (node : Int) (dec : F64) (s : State) : Host.Outcome State Fault Refusal :=
  answer (encodeFrame node .setDeceleration (bodyF32 (float32 dec .dec))) s

/-- SetStoredPosition (R127). -/
def execSetStoredPosition (node : Int) (pos : F64) (store : Bool) (s : State) :
    Host.Outcome State Fault Refusal :=
  answer (encodeFrame node .setStoredPosition (bodyStoredPosition pos store)) s

end Sys2Proof.Machine
end

