-- ==== Sys2Proof/Machine/Identifier.lean ====
section
/-!
DEFINITION. The frame identifier model as requests of their own (`40_identifier.md` R100, R101).
-/

namespace Sys2Proof.Machine

/-- COMPOSE (R100): the identifier, or RangeError naming the first operand outside [0, 255]. -/
def execCompose (node typeId : Int) (s : State) : Host.Outcome State Fault Refusal :=
  answer ((composeIdent node typeId).map Response.ident) s

/-- DECOMPOSE (R101): bits 7:0 and 15:8; total on all 2^32 inputs. -/
def execDecompose (identifier : Ident32) (s : State) : Host.Outcome State Fault Refusal :=
  answer (.ok (.fields (nodeField identifier) (typeIdField identifier))) s

end Sys2Proof.Machine
end

