-- ==== Sys2Proof/Machine/Telemetry.lean ====
section
/-!
DEFINITION. The telemetry decoder (`42_telemetry_decoder.md`): the length check of DECODE (R150) and
one meaning per status layout (R154 to R159), and the no-record case (R160). Which row a DECODE
request is has been decided by its type id before the length is looked at (`Decode.lean`,
R150, R207). Bytes at or beyond the required length are never read (R161).
-/

namespace Sys2Proof.Machine

/-- DECODE of a type id in the Status table: FormatError when the payload is shorter than the
required length, else the record of the layout (R150, R202). -/
def decodeRecord (k : StatusKind) (payload : List Byte) (layout : TelemetryRecord) :
    Result Response :=
  if payload.length < reqLen k then raiseFormat (statusTypeId k) payload.length (reqLen k)
  else .ok (.record layout)

/-- Status, layout S9 (R154). -/
def execStatus (node : Byte) (payload : List Byte) (s : State) :
    Host.Outcome State Fault Refusal :=
  answer (decodeRecord .status payload (.status node
    (scale payload 0 32 1) (scale payload 4 16 10) (scale payload 6 16 1000))) s

/-- Status2, layout S14 (R155). -/
def execStatus2 (node : Byte) (payload : List Byte) (s : State) :
    Host.Outcome State Fault Refusal :=
  answer (decodeRecord .status2 payload (.status2 node
    (scale payload 0 32 10000) (scale payload 4 32 10000))) s

/-- Status3, layout S15 (R156). -/
def execStatus3 (node : Byte) (payload : List Byte) (s : State) :
    Host.Outcome State Fault Refusal :=
  answer (decodeRecord .status3 payload (.status3 node
    (scale payload 0 32 10000) (scale payload 4 32 10000))) s

/-- Status4, layout S16 (R157). -/
def execStatus4 (node : Byte) (payload : List Byte) (s : State) :
    Host.Outcome State Fault Refusal :=
  answer (decodeRecord .status4 payload (.status4 node
    (scale payload 0 16 10) (scale payload 2 16 10) (scale payload 4 16 10)
    (scale payload 6 16 50))) s

/-- Status5, layout S27 (R158). -/
def execStatus5 (node : Byte) (payload : List Byte) (s : State) :
    Host.Outcome State Fault Refusal :=
  answer (decodeRecord .status5 payload (.status5 node
    (scale payload 0 32 6) (scale payload 4 16 10))) s

/-- Status6, layout S28 (R159). -/
def execStatus6 (node : Byte) (payload : List Byte) (s : State) :
    Host.Outcome State Fault Refusal :=
  answer (decodeRecord .status6 payload (.status6 node
    (scale payload 0 16 1000) (scale payload 2 16 1000) (scale payload 4 16 1000)
    (scale payload 6 16 1000))) s

/-- NoRecord: node and type id, no payload byte read, no error (R160, R205). -/
def execNoRecord (typeId node : Byte) (s : State) : Host.Outcome State Fault Refusal :=
  answer (.ok (.noRecord node typeId)) s

end Sys2Proof.Machine
end

