-- ==== Sys2Proof/Machine/Dispatch.lean ====
section
/-!
DEFINITION. One arm per instruction: the meaning each calls. A status row's ignored identifier bits
reach no meaning (`30_encoding.md` R62), nor does a no-record payload (R160).
-/

namespace Sys2Proof.Machine

def exec (i : Instr) (s : State) : Host.Outcome State Fault Refusal :=
  match i with
  | .compose node typeId => Sys2Proof.Machine.execCompose node typeId s
  | .decompose identifier => Sys2Proof.Machine.execDecompose identifier s
  | .setCurrent node current => Sys2Proof.Machine.execSetCurrent node current s
  | .setRpm node rpm => Sys2Proof.Machine.execSetRpm node rpm s
  | .setPosition node pos => Sys2Proof.Machine.execSetPosition node pos s
  | .setKp node kp => Sys2Proof.Machine.execSetKp node kp s
  | .setKi node ki => Sys2Proof.Machine.execSetKi node ki s
  | .setKd node kd => Sys2Proof.Machine.execSetKd node kd s
  | .setPositionFloat node pos vel => Sys2Proof.Machine.execSetPositionFloat node pos vel s
  | .setVelocity node vel => Sys2Proof.Machine.execSetVelocity node vel s
  | .setAcceleration node acc => Sys2Proof.Machine.execSetAcceleration node acc s
  | .setDeceleration node dec => Sys2Proof.Machine.execSetDeceleration node dec s
  | .setStoredPosition node pos store => Sys2Proof.Machine.execSetStoredPosition node pos store s
  | .status _ node payload => Sys2Proof.Machine.execStatus node payload s
  | .status2 _ node payload => Sys2Proof.Machine.execStatus2 node payload s
  | .status3 _ node payload => Sys2Proof.Machine.execStatus3 node payload s
  | .status4 _ node payload => Sys2Proof.Machine.execStatus4 node payload s
  | .status5 _ node payload => Sys2Proof.Machine.execStatus5 node payload s
  | .status6 _ node payload => Sys2Proof.Machine.execStatus6 node payload s
  | .noRecord _ typeId node _ => Sys2Proof.Machine.execNoRecord typeId node s

end Sys2Proof.Machine
end

