-- ==== Sys2Proof/Config.lean ====
section
/-!
DEFINITION. What the spec leaves to each implementation: the OPEN parameters of `00_scope.md` R7.
They are arguments of the model, never a number chosen here: a physical request carries the width
of the port it comes through (`PhysRequest w`), and `PortParams` bundles the two widths with the
bounds R7 sets. `LATENCY` has no place here: no rule depends on it (R246).
-/

namespace Sys2Proof

/-- The OPEN parameters of a physical port (R7): `REQ_INT_WIDTH` and `RX_MAX_LEN`. -/
structure PortParams where
  /-- `REQ_INT_WIDTH`: width of the two's-complement `node` and `type_id` fields (R7, R74). -/
  reqIntWidth : Nat
  /-- `RX_MAX_LEN`: the longest payload, in bytes, a physical decode port carries (R7, R41). -/
  rxMaxLen : Nat
  deriving DecidableEq, Repr

/-- The bounds R7 sets: `REQ_INT_WIDTH` is at least 9 and `RX_MAX_LEN` at least 8. -/
abbrev PortParams.legal (P : PortParams) : Prop := 9 ≤ P.reqIntWidth ∧ 8 ≤ P.rxMaxLen

end Sys2Proof
end

