-- ==== Sys2Proof/WellFormed.lean ====
section
/-!
DEFINITION. Which instruction terms stand for a request of the block, and which of those a physical
port of given parameters can carry. Nothing else is checked: an operand out of range is a request
all the same, answered with an error (`10_state.md` R27, `70_reset_and_hazards.md` R243).
-/

namespace Sys2Proof

open Sys2Proof.Machine

/-- An instruction term is well formed when it is the row the tables select. Only `noRecord` can
fail: its type id must be outside the Status table (R160, R65). -/
def Instr.wf : Instr → Bool
  | .noRecord _ typeId _ _ => (statusKindOf typeId).isNone
  | _ => true

/-- `n` fits a two's-complement field of `w` bits (R74, R10). -/
abbrev fitsInt (w : Nat) (n : Int) : Prop := -2 ^ (w - 1) ≤ n ∧ n < 2 ^ (w - 1)

/-- A port whose integer fields have `w` bits can carry the instruction: its `node` and `type_id`
fit the fields (R74). -/
abbrev Instr.fitsWidth (w : Nat) : Instr → Prop
  | .compose node typeId => fitsInt w node ∧ fitsInt w typeId
  | .decompose _ => True
  | .setCurrent node _ => fitsInt w node
  | .setRpm node _ => fitsInt w node
  | .setPosition node _ => fitsInt w node
  | .setKp node _ => fitsInt w node
  | .setKi node _ => fitsInt w node
  | .setKd node _ => fitsInt w node
  | .setPositionFloat node _ _ => fitsInt w node
  | .setVelocity node _ => fitsInt w node
  | .setAcceleration node _ => fitsInt w node
  | .setDeceleration node _ => fitsInt w node
  | .setStoredPosition node _ _ => fitsInt w node
  | .status _ _ _ => True
  | .status2 _ _ _ => True
  | .status3 _ _ _ => True
  | .status4 _ _ _ => True
  | .status5 _ _ _ => True
  | .status6 _ _ _ => True
  | .noRecord _ _ _ _ => True

/-- The payload bytes a request hands to the decode port; none for the other request kinds. -/
def Instr.rxPayload : Instr → List Byte
  | .status _ _ p => p
  | .status2 _ _ p => p
  | .status3 _ _ p => p
  | .status4 _ _ p => p
  | .status5 _ _ p => p
  | .status6 _ _ p => p
  | .noRecord _ _ _ p => p
  | _ => []

/-- A legal physical port can carry the instruction (R7, R41, R74). -/
abbrev Instr.fitsPort (P : PortParams) (i : Instr) : Prop :=
  P.legal ∧ i.fitsWidth P.reqIntWidth ∧ i.rxPayload.length ≤ P.rxMaxLen

end Sys2Proof
end

