-- ==== Sys2Proof/Decode.lean ====
section
/-!
DEFINITION. From a request to the opcode-table row that gives it its meaning, and back.

The block fetches no instruction words (`10_state.md` R22). Its request arrives typed (R27) or, in
a hardware rendering, as numbered fields (`30_encoding.md` R74). Decoding has two stages: the
physical request decoder (R74, R204), which can only reject an ENCODE kind outside the Command
table, and the classification of a request by its kind and its direction's table (R65).
The encoder is the inverse, from the same tables.
-/

namespace Sys2Proof

open Sys2Proof.Machine

/-! ### Classification of a typed request (R27, R63 to R66) -/

/-- The row of an ENCODE request: the command's kind (R63, R115). -/
def encodeInstr (node : Int) : Command → Instr
  | .setCurrent x => .setCurrent node x
  | .setRpm x => .setRpm node x
  | .setPosition x => .setPosition node x
  | .setKp x => .setKp node x
  | .setKi x => .setKi node x
  | .setKd x => .setKd node x
  | .setPositionFloat p v => .setPositionFloat node p v
  | .setVelocity x => .setVelocity node x
  | .setAcceleration x => .setAcceleration node x
  | .setDeceleration x => .setDeceleration node x
  | .setStoredPosition p b => .setStoredPosition node p b

/-- The row of a DECODE request: the identifier's type id looked up in the Status table only
(R65, R104, R150). -/
def decodeInstr (identifier : Ident32) (payload : List Byte) : Instr :=
  match statusKindOf (typeIdField identifier) with
  | some .status => .status (ignoredField identifier) (nodeField identifier) payload
  | some .status2 => .status2 (ignoredField identifier) (nodeField identifier) payload
  | some .status3 => .status3 (ignoredField identifier) (nodeField identifier) payload
  | some .status4 => .status4 (ignoredField identifier) (nodeField identifier) payload
  | some .status5 => .status5 (ignoredField identifier) (nodeField identifier) payload
  | some .status6 => .status6 (ignoredField identifier) (nodeField identifier) payload
  | none =>
    .noRecord (ignoredField identifier) (typeIdField identifier) (nodeField identifier) payload

/-- The row that gives a request its meaning. -/
def requestInstr : Request → Instr
  | .compose node typeId => .compose node typeId
  | .decompose identifier => .decompose identifier
  | .encode node cmd => encodeInstr node cmd
  | .decode identifier payload => decodeInstr identifier payload

/-! ### The physical request decoder (R74, R204) -/

/-- Why a physical request is rejected. There is one reason: an ENCODE `kind` that is not a type
id of the Command table (R74, R204). -/
inductive DecodeError where
  | illegalKind (kind : BitVec 8)
  deriving DecidableEq, Repr

/-- A 1-bit field read as a truth value. -/
def bitSet (b : BitVec 1) : Bool := b == 1#1

/-- The command of an ENCODE request whose kind the Command table holds, its parameters from the
parameter fields in order (R74). `vel_present` is read for SetPositionFloat only, `store` for
SetStoredPosition only. -/
def physCommand {w : Nat} (p : PhysRequest w) : CommandKind → Command
  | .setCurrent => .setCurrent p.p0
  | .setRpm => .setRpm p.p0
  | .setPosition => .setPosition p.p0
  | .setKp => .setKp p.p0
  | .setKi => .setKi p.p0
  | .setKd => .setKd p.p0
  | .setPositionFloat => .setPositionFloat p.p0 (if bitSet p.velPresent then some p.p1 else none)
  | .setVelocity => .setVelocity p.p0
  | .setAcceleration => .setAcceleration p.p0
  | .setDeceleration => .setDeceleration p.p0
  | .setStoredPosition => .setStoredPosition p.p0 (bitSet p.store)

/-- The typed request a physical request stands for: `op` 0 COMPOSE, 1 DECOMPOSE, 2 ENCODE,
3 DECODE; `node` and `type_id` read as `sint_REQ_INT_WIDTH` (R74). Total: every `op` is used. -/
def physRequest {w : Nat} (p : PhysRequest w) : Except DecodeError Request :=
  match p.op.toNat with
  | 0 => .ok (.compose (sint p.node) (sint p.typeId))
  | 1 => .ok (.decompose p.identifier)
  | 2 =>
    match commandKindOf p.kind with
    | some k => .ok (.encode (sint p.node) (physCommand p k))
    | none => .error (.illegalKind p.kind)
  | _ => .ok (.decode p.identifier p.payload)

/-- The instruction of a physical request, or why it is rejected. -/
def decode {w : Nat} (p : PhysRequest w) : Except DecodeError Instr :=
  match physRequest p with
  | .ok r => .ok (requestInstr r)
  | .error e => .error e

/-! ### The encoder -/

/-- The typed request an instruction stands for, with the type ids of the Status table (R64). -/
def instrRequest : Instr → Request
  | .compose node typeId => .compose node typeId
  | .decompose identifier => .decompose identifier
  | .setCurrent node x => .encode node (.setCurrent x)
  | .setRpm node x => .encode node (.setRpm x)
  | .setPosition node x => .encode node (.setPosition x)
  | .setKp node x => .encode node (.setKp x)
  | .setKi node x => .encode node (.setKi x)
  | .setKd node x => .encode node (.setKd x)
  | .setPositionFloat node p v => .encode node (.setPositionFloat p v)
  | .setVelocity node x => .encode node (.setVelocity x)
  | .setAcceleration node x => .encode node (.setAcceleration x)
  | .setDeceleration node x => .encode node (.setDeceleration x)
  | .setStoredPosition node p b => .encode node (.setStoredPosition p b)
  | .status hi node p => .decode (ident32 hi (statusTypeId .status) node) p
  | .status2 hi node p => .decode (ident32 hi (statusTypeId .status2) node) p
  | .status3 hi node p => .decode (ident32 hi (statusTypeId .status3) node) p
  | .status4 hi node p => .decode (ident32 hi (statusTypeId .status4) node) p
  | .status5 hi node p => .decode (ident32 hi (statusTypeId .status5) node) p
  | .status6 hi node p => .decode (ident32 hi (statusTypeId .status6) node) p
  | .noRecord hi typeId node p => .decode (ident32 hi typeId node) p

/-- The kind of a command (R63). -/
def commandKind : Command → CommandKind
  | .setCurrent _ => .setCurrent
  | .setRpm _ => .setRpm
  | .setPosition _ => .setPosition
  | .setKp _ => .setKp
  | .setKi _ => .setKi
  | .setKd _ => .setKd
  | .setPositionFloat _ _ => .setPositionFloat
  | .setVelocity _ => .setVelocity
  | .setAcceleration _ => .setAcceleration
  | .setDeceleration _ => .setDeceleration
  | .setStoredPosition _ _ => .setStoredPosition

/-- A physical request with every field zero: `op` 0 and nothing else set. -/
def physZero (w : Nat) : PhysRequest w :=
  { op := 0, node := 0, typeId := 0, identifier := 0, kind := 0, p0 := 0, p1 := 0,
    velPresent := 0, store := 0, payload := [] }

/-- The first parameter field of a command (R74). -/
def commandP0 : Command → F64
  | .setCurrent x => x
  | .setRpm x => x
  | .setPosition x => x
  | .setKp x => x
  | .setKi x => x
  | .setKd x => x
  | .setPositionFloat p _ => p
  | .setVelocity x => x
  | .setAcceleration x => x
  | .setDeceleration x => x
  | .setStoredPosition p _ => p

/-- The velocity a command supplies, if any (R74 `vel_present` and the second parameter). -/
def commandVel : Command → Option F64
  | .setPositionFloat _ v => v
  | _ => none

/-- The store flag a command carries; clear for the others (R74 `store`). -/
def commandStore : Command → Bool
  | .setStoredPosition _ b => b
  | _ => false

/-- The numbered fields of a typed request; a field the request does not use is zero (R74). -/
def encodeRequest (w : Nat) : Request → PhysRequest w
  | .compose node typeId =>
    { physZero w with op := 0, node := twos w node, typeId := twos w typeId }
  | .decompose identifier => { physZero w with op := 1, identifier := identifier }
  | .encode node cmd =>
    { physZero w with
      op := 2, node := twos w node, kind := commandTypeId (commandKind cmd),
      p0 := commandP0 cmd, p1 := (commandVel cmd).getD 0,
      velPresent := BitVec.ofBool (commandVel cmd).isSome,
      store := BitVec.ofBool (commandStore cmd) }
  | .decode identifier payload =>
    { physZero w with op := 3, identifier := identifier, payload := payload }

/-- The physical request of an instruction, for a port whose integer fields have `w` bits. -/
def encode (w : Nat) (i : Instr) : PhysRequest w := encodeRequest w (instrRequest i)

/-! ### Words of the opcode table

The table numbers three kinds of word (its `format` column): the `op` field of a request (REQ),
the identifier an ENCODE request puts out (ID29) and the identifier a DECODE request takes in
(ID32). They overlap as numbers, so a word is read by its width and, among identifiers, by the
direction whose table row it matches: an ID29 row fixes bits 28:8, an ID32 row bits 15:8 (R65;
DESIGN CHOICE, log entry 6). -/

/-- The bits of one row: `word &&& mask = pattern`. -/
structure TableRow where
  pattern : Nat
  mask : Nat
  deriving DecidableEq, Repr

/-- A word matches a row. -/
def TableRow.holds (r : TableRow) (word : Nat) : Bool := (word &&& r.mask) == r.pattern

/-- The row of a command: its type id in bits 15:8, bits 28:16 zero, any node (R60, R63). -/
def commandRow (k : CommandKind) : TableRow := ⟨(commandTypeId k).toNat * 256, 0x1FFFFF00⟩

/-- The row of a status: its type id in bits 15:8, all else ignored (R62, R64). -/
def statusRow (k : StatusKind) : TableRow := ⟨(statusTypeId k).toNat * 256, 0xFF00⟩

/-- The command row an identifier word matches, if any. -/
def commandRowOf (word : Nat) : Option CommandKind :=
  match commandKindOf (BitVec.ofNat 8 (word / 256)) with
  | some k => if (commandRow k).holds word then some k else none
  | none => none

/-- The physical request that carries a table word, every other field zero. Its integer fields
have the least width R7 allows. A word of 8 bits is the `op` field of a REQ row. A wider word (or
the empty word of the NoRecord row, which fixes no bit) is an identifier: where it matches a
command row, the ENCODE request that puts it out; otherwise the DECODE request that takes it in. -/
def tableRequest (nbits word : Nat) : PhysRequest 9 :=
  if nbits = 8 then { physZero 9 with op := BitVec.ofNat 2 word }
  else
    match commandRowOf word with
    | some k =>
      { physZero 9 with op := 2, node := BitVec.ofNat 9 (word % 256), kind := commandTypeId k }
    | none => { physZero 9 with op := 3, identifier := BitVec.ofNat 32 word }

/-- The instruction the decoder reads from a table word; `none` where it rejects it. -/
def decodeTableWord (nbits w : Nat) : Option Instr :=
  match decode (tableRequest nbits w) with
  | .ok i => some i
  | .error _ => none

end Sys2Proof
end

