-- ==== Sys2Proof/Machine/Port.lean ====
section
/-!
DEFINITION. The request port: how the block comes to hold a request (`10_state.md` R27, R29,
`30_encoding.md` R74) and how reset reaches it (`70_reset_and_hazards.md` R240, R243).
-/

namespace Sys2Proof.Machine

/-- Reset is the next thing the outside does. It is taken before a request in flight is answered:
that request is discarded (R240). -/
def resetAsserted (s : State) : Bool :=
  match s.inputs with
  | .reset :: _ => true
  | _ => false

/-- One event at the port. A typed request is accepted (R29). A physical request is decoded and
accepted, or, when its ENCODE kind is outside the Command table, answered IllegalRequest at once:
it is no request of the typed interface, so it never enters the slot (R74, R204, R207; DESIGN
CHOICE, log entry 3). -/
def takeInput (e : Input) (s : State) : State :=
  match e with
  | .request r => accept r s
  | .physical _ p =>
    match physRequest p with
    | .ok r => accept r s
    | .error (.illegalKind k) => deliver (illegalResponse k) s
  | .reset => takeReset s
  | .quiet => s

/-- Take the next event; with none to take the block stays as it is (R218). It is asked only of a
block whose slot is empty, or of one that reset is about to empty (R29, R240). -/
def takeNextInput (s : State) : State :=
  match s.inputs with
  | [] => s
  | e :: rest => takeInput e { s with inputs := rest }

/-- Reset held back: where it is the next event, a quiet moment is put before it, so that a request
in flight is answered first. -/
def holdReset (s : State) : State :=
  if resetAsserted s then { s with inputs := .quiet :: s.inputs } else s

/-- The state in which the very next step answers a physical request: the request it stands for in
the slot, or, for one the decoder rejects, that request at the port of an idle block. -/
def loadPhysical {w : Nat} (p : PhysRequest w) (s : State) : State :=
  match physRequest p with
  | .ok r => accept r (holdReset s)
  | .error _ => { s with inflight := none, inputs := .physical w p :: s.inputs }

end Sys2Proof.Machine
end

