-- ==== Sys2Proof/Machine/Step.lean ====
section
/-!
DEFINITION. One step of the machine. The block fetches no program (`10_state.md` R22): a step answers
the request in flight, or, with the slot empty, takes the next event of its port (R29). Reset comes
before either (`70_reset_and_hazards.md` R240).
-/

namespace Sys2Proof.Machine

/-- One step: reset if it is asserted, else the answer to the request in flight, else the next
event at the port. Two steps to a transaction, and reset first, are DESIGN CHOICE, log entry 2. -/
def step (s : State) : Host.Outcome State Fault Refusal :=
  if resetAsserted s then .next (takeNextInput s)
  else
    match s.inflight with
    | some r => exec (requestInstr r) s
    | none => .next (takeNextInput s)

/-- `s` with the request that carries a table word accepted, so that the very next step answers
it (DESIGN CHOICE, log entry 6). -/
def State.withFetchWord (s : State) (nbits w : Nat) : State := loadPhysical (tableRequest nbits w) s

end Sys2Proof.Machine
end

