-- ==== Sys2Proof/Machine/CallText.lean ====
section
/-!
DEFINITION. The written form of a request (`30_encoding.md` R78, R79): from the characters of a call
such as `SetCurrent(node=31, current=2.5)` to the call, and from the call to the request it stands
for. A text that is not a call of the grammar reads as `none`. The forms R78 leaves open, such as
how a decimal literal or a `HEX` is spelled and where spaces may stand, are log entry 7's
(DESIGN CHOICE).
-/

namespace Sys2Proof.Machine

/-! ### From a call to its request -/

/-- The binary64 value a `REAL` denotes: the one nearest the decimal literal (ties to even, log
entry 7), a NaN, or an infinity (R78). -/
def realValue : RealLit → F64
  | .dec neg digits exp10 => f64Nearest neg (digits * 10 ^ exp10.toNat) (10 ^ (-exp10).toNat)
  | .nan => 0x7FF8000000000000#64
  | .inf neg => f64Make neg binary64.infMag

/-- The 32-bit identifier a `HEX` denotes. -/
def hexIdent (v : Nat) : Option Ident32 := if v < 2 ^ 32 then some (BitVec.ofNat 32 v) else none

/-- The command a CMD name and its ARGS stand for; an omitted `vel` is `none` (R78, R79). -/
def callCommand : CommandKind → List (ArgName × ArgVal) → Option Command
  | .setCurrent, [(.current, .real x)] => some (.setCurrent (realValue x))
  | .setRpm, [(.rpm, .real x)] => some (.setRpm (realValue x))
  | .setPosition, [(.pos, .real x)] => some (.setPosition (realValue x))
  | .setKp, [(.kp, .real x)] => some (.setKp (realValue x))
  | .setKi, [(.ki, .real x)] => some (.setKi (realValue x))
  | .setKd, [(.kd, .real x)] => some (.setKd (realValue x))
  | .setPositionFloat, [(.pos, .real x)] => some (.setPositionFloat (realValue x) none)
  | .setPositionFloat, [(.pos, .real x), (.vel, .real v)] =>
    some (.setPositionFloat (realValue x) (some (realValue v)))
  | .setVelocity, [(.vel, .real x)] => some (.setVelocity (realValue x))
  | .setAcceleration, [(.acc, .real x)] => some (.setAcceleration (realValue x))
  | .setDeceleration, [(.dec, .real x)] => some (.setDeceleration (realValue x))
  | .setStoredPosition, [(.pos, .real x), (.store, .flag b)] =>
    some (.setStoredPosition (realValue x) b)
  | _, _ => none

/-- The request a call stands for (R78). -/
def callRequest (c : Call) : Option Request :=
  match c.name, c.args with
  | .compose, [(.node, .int n), (.typeId, .int t)] => some (.compose n t)
  | .decompose, [(.identifier, .hex v)] => (hexIdent v).map .decompose
  | .decode, [(.identifier, .hex v), (.payload, .bytes bs)] =>
    (hexIdent v).map (fun i => .decode i bs)
  | .cmd k, (.node, .int n) :: args => (callCommand k args).map (.encode n)
  | _, _ => none

/-! ### From characters to a call -/

/-- The names that open a call, as written (R78). -/
def callNames : List (String × CallName) :=
  [("Compose", .compose), ("Decompose", .decompose), ("Decode", .decode),
   ("SetCurrent", .cmd .setCurrent), ("SetRpm", .cmd .setRpm), ("SetPosition", .cmd .setPosition),
   ("SetKp", .cmd .setKp), ("SetKi", .cmd .setKi), ("SetKd", .cmd .setKd),
   ("SetPositionFloat", .cmd .setPositionFloat), ("SetVelocity", .cmd .setVelocity),
   ("SetAcceleration", .cmd .setAcceleration), ("SetDeceleration", .cmd .setDeceleration),
   ("SetStoredPosition", .cmd .setStoredPosition)]

/-- The argument names as written (R78). -/
def argNames : List (String × ArgName) :=
  [("node", .node), ("type_id", .typeId), ("identifier", .identifier), ("payload", .payload),
   ("current", .current), ("rpm", .rpm), ("pos", .pos), ("kp", .kp), ("ki", .ki), ("kd", .kd),
   ("vel", .vel), ("acc", .acc), ("dec", .dec), ("store", .store)]

/-- The entry written as these characters. -/
def lookupName {α : Type} (table : List (String × α)) (cs : List Char) : Option α :=
  (table.find? (fun e => e.1.toList == cs)).map Prod.snd

/-- The value of a hexadecimal digit. -/
def hexDigit (c : Char) : Option Nat :=
  let n := c.toNat
  if 48 ≤ n ∧ n ≤ 57 then some (n - 48)
  else if 65 ≤ n ∧ n ≤ 70 then some (n - 55)
  else if 97 ≤ n ∧ n ≤ 102 then some (n - 87)
  else none

/-- A run of digits in a base, read on from a value already there; no digit out of the base. -/
def digitsFrom (base : Nat) : Nat → List Char → Option Nat
  | acc, [] => some acc
  | acc, c :: cs =>
    match hexDigit c with
    | some d => if d < base then digitsFrom base (acc * base + d) cs else none
    | none => none

/-- At least one digit of the base. -/
def digits (base : Nat) : List Char → Option Nat
  | [] => none
  | cs => digitsFrom base 0 cs

/-- The sign of an exponent, then the rest. -/
def signOf : List Char → Bool × List Char
  | '-' :: cs => (true, cs)
  | '+' :: cs => (false, cs)
  | cs => (false, cs)

/-- A minus sign, if there is one, then the rest. -/
def minusOf : List Char → Bool × List Char
  | '-' :: cs => (true, cs)
  | cs => (false, cs)

/-- An `INT`: a decimal integer, a minus sign first where it is negative, with no fraction and no
exponent (R78). Leading zeros and `-0` are read (DESIGN CHOICE, log entry 7). -/
def intOf (cs : List Char) : Option Int :=
  (digits 10 (minusOf cs).2).map (fun n => if (minusOf cs).1 then -(n : Int) else n)

/-- The flag of `store`: the one character `0` or `1` (R78, R79). -/
def flagOf : List Char → Option Bool
  | ['0'] => some false
  | ['1'] => some true
  | _ => none

/-- The exponent part of a decimal literal. -/
def exponentOf (cs : List Char) : Option Int :=
  (digits 10 (signOf cs).2).map (fun n => if (signOf cs).1 then -(n : Int) else n)

/-- The mantissa of a decimal literal with an exponent: `i` or `i.f`. -/
def mantissaOf (neg : Bool) (e : Int) (cs : List Char) : Option RealLit :=
  match cs.splitOn '.' with
  | [i] => (digits 10 i).map (fun n => .dec neg n e)
  | [i, f] =>
    match digits 10 i, digits 10 f with
    | some _, some _ => (digits 10 (i ++ f)).map (fun n => .dec neg n (e - f.length))
    | _, _ => none
  | _ => none

/-- A number as written: `nan`, `inf`, `-inf`, or a decimal literal with an optional fraction and an
optional exponent (R78). -/
def numberOf : List Char → Option RealLit
  | ['n', 'a', 'n'] => some .nan
  | ['i', 'n', 'f'] => some (.inf false)
  | ['-', 'i', 'n', 'f'] => some (.inf true)
  | cs =>
    match (minusOf cs).2.splitOn 'e' with
    | [m] => mantissaOf (minusOf cs).1 0 m
    | [m, e] =>
      match exponentOf e with
      | some e => mantissaOf (minusOf cs).1 e m
      | none => none
    | _ => none

/-- A `HEX`: `0x` and hexadecimal digits (R8). -/
def hexOf : List Char → Option Nat
  | '0' :: 'x' :: cs => digits 16 cs
  | _ => none

/-- A HEXBYTE: two hexadecimal digits (R78). -/
def hexByteOf : List Char → Option Byte
  | [a, b] => (digits 16 [a, b]).map (BitVec.ofNat 8)
  | _ => none

/-- A `BYTES`: bytes between square brackets, offset 0 first, spaces between them (R78). -/
def bytesOf : List Char → Option (List Byte)
  | '[' :: cs =>
    if cs.getLast? = some ']' then
      ((cs.dropLast.splitOn ' ').filter (fun w => !w.isEmpty)).mapM hexByteOf
    else none
  | _ => none

/-- The value after `=`, in the form the argument's name calls for (R78). -/
def argValOf (a : ArgName) (cs : List Char) : Option ArgVal :=
  match a with
  | .identifier => (hexOf cs).map .hex
  | .payload => (bytesOf cs).map .bytes
  | .node => (intOf cs).map .int
  | .typeId => (intOf cs).map .int
  | .store => (flagOf cs).map .flag
  | _ => (numberOf cs).map .real

/-- One argument, `name=value`, spaces before it skipped. -/
def argOf (cs : List Char) : Option (ArgName × ArgVal) :=
  match (cs.dropWhile (· == ' ')).splitOn '=' with
  | [n, v] =>
    match lookupName argNames n with
    | some a => (argValOf a v).map (fun x => (a, x))
    | none => none
  | _ => none

/-- A call: its name, then its arguments between round brackets, commas between them (R78). -/
def callOf (cs : List Char) : Option Call :=
  match cs.splitOn '(' with
  | [name, inside] =>
    if inside.getLast? = some ')' then
      match lookupName callNames name, (inside.dropLast.splitOn ',').mapM argOf with
      | some n, some args => some ⟨n, args⟩
      | _, _ => none
    else none
  | _ => none

/-- The request a written call stands for. -/
def textRequest (text : String) : Option Request := (callOf text.toList).bind callRequest

end Sys2Proof.Machine
end

