-- ==== Sys2Proof/Machine/Channels.lean ====
section
/-!
DEFINITION. Several request channels into one block, or several instances of it (`10_state.md` R31):
each has an order of its own (`20_memory.md` R51). Each also has a slot of its own (DESIGN CHOICE, log
entry 15), one moves at a time (DESIGN CHOICE, log entry 10), and each has a reset of its own (DESIGN
CHOICE, log entry 14).
-/

namespace Sys2Proof.Machine

/-- One state per channel, its transaction slot with it. Whether several channels into one block share
the one slot of R29 and R30 is not said by R31 or R51 (DESIGN CHOICE, log entry 15). -/
abbrev Channels := List State

/-- One step of channel `k`; the others stay as they are. A number that names no channel does
nothing (DESIGN CHOICE, log entry 10). A reset event reaches its own channel only: whether a reset
empties every channel's slot at once is left open by R31 and R240 (DESIGN CHOICE, log entry 14). -/
def stepChannel (k : Nat) (cs : Channels) : Host.Outcome Channels Fault Refusal :=
  match cs[k]? with
  | none => .next cs
  | some s =>
    match step s with
    | .next t => .next (cs.set k t)
    | .fault f => .fault f
    | .refused r => .refused r

end Sys2Proof.Machine
end

