-- ==== Sys2Proof/Safety.lean ====
section
/-!
DEFINITION. What the spec promises of every response the block delivers, whatever was asked: the
reserved bits of an identifier, the extended flag, the payload lengths, the range of each decoded
field, and the pairing of an error with its info. A state is legal when all it has delivered is.
-/

namespace Sys2Proof.Machine

/-- A decoded field of `W` bits with divisor `d`: the raw value is a signed `W`-bit integer and the
value is exactly `raw / d` (R152, R163). -/
abbrev ScaledField.legal (W d : Nat) (f : ScaledField) : Prop :=
  f.div = d ∧ -2 ^ (W - 1) ≤ f.raw ∧ f.raw < 2 ^ (W - 1) ∧ f.value = (f.raw : Rat) / (d : Rat)

/-- A record has the field widths and divisors of its layout (R69, R153). -/
abbrev TelemetryRecord.legal : TelemetryRecord → Prop
  | .status _ erpm current dutyCycle =>
    erpm.legal 32 1 ∧ current.legal 16 10 ∧ dutyCycle.legal 16 1000
  | .status2 _ ampHours ampHoursCharged => ampHours.legal 32 10000 ∧ ampHoursCharged.legal 32 10000
  | .status3 _ wattHours wattHoursCharged =>
    wattHours.legal 32 10000 ∧ wattHoursCharged.legal 32 10000
  | .status4 _ tempFet tempMotor currentIn pidPos =>
    tempFet.legal 16 10 ∧ tempMotor.legal 16 10 ∧ currentIn.legal 16 10 ∧ pidPos.legal 16 50
  | .status5 _ tachometer voltageIn => tachometer.legal 32 6 ∧ voltageIn.legal 16 10
  | .status6 _ adc1 adc2 adc3 ppm =>
    adc1.legal 16 1000 ∧ adc2.legal 16 1000 ∧ adc3.legal 16 1000 ∧ ppm.legal 16 1000

/-- The payload lengths a command kind can have (R63, R70). -/
abbrev legalTxLen (k : CommandKind) (n : Nat) : Prop :=
  match k with
  | .setStoredPosition => n = 5
  | .setPositionFloat => n = 4 ∨ n = 8
  | _ => n = 4

/-- An output frame: bits 28:16 zero and bits 15:8 the type id of a command (R60, R61, R67), the
extended flag true, and a payload length of that command (R70). -/
abbrev legalFrame (identifier : Ident29) (extended : Bool) (payload : List Byte) : Prop :=
  identifier.toNat < 65536 ∧ extended = true ∧
    match commandKindOf (identifier.extractLsb' 8 8) with
    | some k => legalTxLen k payload.length
    | none => False

/-- An error and its info go together, and the info names a true cause: a value outside [0, 255], a
Status type id with a payload shorter than it requires, or a kind outside the Command table
(R200, R206). -/
abbrev legalError : ErrorKind → ErrorInfo → Prop
  | .rangeError, .rangeInfo _ value => value < 0 ∨ 255 < value
  | .formatError, .formatInfo typeId length required =>
    length < required ∧
      match statusKindOf typeId with
      | some k => required = reqLen k
      | none => False
  | .valueOutOfRange, .valueInfo _ => True
  | .illegalRequest, .illegalInfo kind => commandKindOf kind = none
  | _, _ => False

/-- A response the spec allows the block to give. -/
abbrev Response.legal : Response → Prop
  | .ident identifier => identifier.toNat < 65536
  | .fields _ _ => True
  | .frame identifier extended payload => legalFrame identifier extended payload
  | .record rec => rec.legal
  | .noRecord _ typeId => statusKindOf typeId = none
  | .error kind info => legalError kind info

/-- Every response delivered so far is one the spec allows. -/
abbrev State.legal (s : State) : Prop := ∀ r ∈ s.responses, r.legal

end Sys2Proof.Machine
end

