-- ==== Sys2Proof/Certificates/Slice0/Obligations.lean ====
section
/-!
DEFINITION. The statements for the provers, in the order of the spec's files. The helper definitions
below say payload bytes, frames, fields and roundings in words of their own, not through the
operations the meanings are built from (`memWrite`, `beBytes`, `ident29`, `scale`, `roundMag`).
-/

namespace Sys2Proof.Certificates

open Sys2Proof Sys2Proof.Machine

/-- The state after a response `r`: the slot is empty, `r` is delivered last, the rest as before. -/
abbrev afterResponse (s : State) (r : Response) : State :=
  { s with inflight := none, responses := s.responses ++ [r] }

/-- `[0, 255]`. -/
abbrev isByte (n : Int) : Prop := 0 ≤ n ∧ n ≤ 255

/-- The RangeError that names the node. -/
abbrev nodeError (node : Int) : Response := .error .rangeError (.rangeInfo .node node)

/-- The ValueOutOfRange that names a parameter. -/
abbrev valueError (field : ParamField) : Response := .error .valueOutOfRange (.valueInfo field)

/-- The frame to a node under a type id: identifier `node + 256 * type_id`, extended. -/
abbrev frameTo (node : Int) (typeId : Nat) (payload : List Byte) : Response :=
  .frame (BitVec.ofInt 29 (node + 256 * typeId)) true payload

/-- The four bytes of a 32-bit vector, bits 31:24 first. -/
abbrev bytesOf32 (v : BitVec 32) : List Byte :=
  [v.extractLsb' 24 8, v.extractLsb' 16 8, v.extractLsb' 8 8, v.extractLsb' 0 8]

/-- `n` is a signed 32-bit integer. -/
abbrev isInt32 (n : Int) : Prop := -2147483648 ≤ n ∧ n ≤ 2147483647

/-- What a scaled-int32 command does: the RangeError of a bad node before anything else, the frame
with the truncated binary64 product when it is an int32, else the ValueOutOfRange. -/
def ScaledCommand (mk : Int → F64 → Instr) (typeId F : Nat) (field : ParamField) : Prop :=
  ∀ (node : Int) (x : F64) (s : State),
    (¬ isByte node → exec (mk node x) s = .next (afterResponse s (nodeError node))) ∧
    (isByte node → isFinite x → isFinite (mul64 x F) → isInt32 (trunc (mul64 x F)) →
      exec (mk node x) s = .next (afterResponse s
        (frameTo node typeId (bytesOf32 (BitVec.ofInt 32 (trunc (mul64 x F))))))) ∧
    (isByte node →
      (isNaN x ∨ isInf x ∨ isInf (mul64 x F) ∨
        isFinite x ∧ isFinite (mul64 x F) ∧ ¬ isInt32 (trunc (mul64 x F))) →
      exec (mk node x) s = .next (afterResponse s (valueError field)))

/-- A finite binary64 value that no binary32 datum holds: it rounds to infinity. -/
abbrev overflows32 (x : F64) : Prop := isFinite x ∧ isInf32 (rne32 x)

/-- The bits a float field holds for a parameter that does not overflow. -/
abbrev float32Bits (x : F64) : BitVec 32 := if isNaN x then 0x7FC00000#32 else rne32 x

/-- What a command with one float parameter does. -/
def FloatCommand (mk : Int → F64 → Instr) (typeId : Nat) (field : ParamField) : Prop :=
  ∀ (node : Int) (x : F64) (s : State),
    (¬ isByte node → exec (mk node x) s = .next (afterResponse s (nodeError node))) ∧
    (isByte node → ¬ overflows32 x → exec (mk node x) s =
      .next (afterResponse s (frameTo node typeId (bytesOf32 (float32Bits x))))) ∧
    (isByte node → overflows32 x → exec (mk node x) s = .next (afterResponse s (valueError field)))

/-- A decoded field: the signed value of its bits, its divisor, the exact quotient. -/
abbrev fieldOf {W : Nat} (v : BitVec W) (d : Nat) : ScaledField :=
  ⟨v.toInt, d, (v.toInt : Rat) / (d : Rat)⟩

/-- The FormatError of a status type. -/
abbrev shortError (typeId : Byte) (length required : Nat) : Response :=
  .error .formatError (.formatInfo typeId length required)

/-- What a status row does on a payload shorter than `required`. -/
def ShortPayloadFails (mk : BitVec 16 → Byte → List Byte → Instr) (typeId : Byte)
    (required : Nat) : Prop :=
  ∀ (hi : BitVec 16) (node : Byte) (p : List Byte) (s : State), p.length < required →
    exec (mk hi node p) s = .next (afterResponse s (shortError typeId p.length required))

/-- `y` is the binary64 datum nearest the real `v`: no finite datum is nearer, and where another
value is as near, `y` has an even significand. -/
def IsNearest64 (v : Rat) (y : F64) : Prop :=
  isFinite y ∧ ∀ z : F64, isFinite z →
    |v - f64Value y| ≤ |v - f64Value z| ∧
    (|v - f64Value y| = |v - f64Value z| → f64Value z = f64Value y ∨ y.toNat % 2 = 0)

/-- `y` is the binary32 datum nearest the real `v`, ties to even. -/
def IsNearest32 (v : Rat) (y : F32) : Prop :=
  f32Mag y < binary32.infMag ∧ ∀ z : F32, f32Mag z < binary32.infMag →
    |v - f32Value y| ≤ |v - f32Value z| ∧
    (|v - f32Value y| = |v - f32Value z| → f32Value z = f32Value y ∨ y.toNat % 2 = 0)

/-- The number is strictly positive: `+infinity`, or finite with a value above zero. -/
abbrev strictlyPositive (v : F64) : Prop :=
  v = 0x7FF0000000000000#64 ∨ isFinite v ∧ 0 < f64Value v

/-- The row of a status kind. -/
abbrev rowOf : StatusKind → BitVec 16 → Byte → List Byte → Instr
  | .status => .status
  | .status2 => .status2
  | .status3 => .status3
  | .status4 => .status4
  | .status5 => .status5
  | .status6 => .status6

/-- The type ids of the Command table. -/
abbrev commandIds : List Nat := [1, 3, 4, 64, 65, 66, 68, 69, 70, 71, 72]

/-- The type ids of the Status table. -/
abbrev statusIds : List Nat := [9, 14, 15, 16, 27, 28]

/-- The next event is not a reset. -/
abbrev noReset (l : List Input) : Prop := l.head? ≠ some Input.reset

end Sys2Proof.Certificates

open Sys2Proof Sys2Proof.Machine Sys2Proof.Certificates

/-! ### Byte order and the payload spaces -/

/-- R12, R43: `MemWrite(off, n, v)` puts the byte of significance `n-1-k` at offset `off+k` and leaves
every other offset as it was. -/
def Obligations.MemWriteIsBigEndianAndLocal : Prop :=
  ∀ (m : Memory) (off n : Nat) (v : BitVec (8 * n)),
    (∀ k, k < n → readByte (memWrite m off n v) (off + k) =
      some (BitVec.ofNat 8 (v.toNat / 2 ^ (8 * (n - 1 - k))))) ∧
    (∀ a, a < off ∨ off + n ≤ a → readByte (memWrite m off n v) a = readByte m a)

/-- R43: what MemWrite puts at offset 0 of an empty payload, MemRead reads back, whatever follows. -/
def Obligations.MemReadOfMemWrite : Prop :=
  ∀ (n : Nat) (v : BitVec (8 * n)) (rest : List Byte),
    memRead (payloadBytes (memWrite [] 0 n v) ++ rest) 0 n = v

/-- R10: `sint_N` and `twos_N` are inverse on the N-bit two's-complement range. -/
def Obligations.TwosComplementRoundTrip : Prop :=
  ∀ (N : Nat), 0 < N →
    (∀ n : Int, -2 ^ (N - 1) ≤ n → n ≤ 2 ^ (N - 1) - 1 → sint (twos N n) = n) ∧
    (∀ b : BitVec N, -2 ^ (N - 1) ≤ sint b ∧ sint b ≤ 2 ^ (N - 1) - 1 ∧ twos N (sint b) = b)

/-! ### Encodings and the type-id map -/

/-- R65: no type id is in both tables, and each table gives a type id back its own kind. -/
def Obligations.TablesAreDisjointAndFaithful : Prop :=
  (∀ t : Byte, commandKindOf t = none ∨ statusKindOf t = none) ∧
  (∀ (t : Byte) (k : CommandKind), commandKindOf t = some k ↔ t = commandTypeId k) ∧
  (∀ (t : Byte) (k : StatusKind), statusKindOf t = some k ↔ t = statusTypeId k)

/-- Some words of the opcode table, and what they decode to. How a table word is read is the model's
choice (log entry 6). -/
def Obligations.TableWordsDecode : Prop :=
  decodeTableWord 8 0x0 = some (.compose 0 0) ∧
  decodeTableWord 8 0x1 = some (.decompose 0) ∧
  decodeTableWord 32 0x11F = some (.setCurrent 31 0) ∧
  decodeTableWord 32 0x4443 = some (.setPositionFloat 67 0 none) ∧
  decodeTableWord 16 0x91F = some (.status 0 31 []) ∧
  decodeTableWord 32 0x1FFF1B0A = some (.status5 0x1FFF 10 []) ∧
  decodeTableWord 32 0x21F = some (.noRecord 0 2 31 [])

/-- R74: a physical request made from a well-formed instruction that the port can carry decodes to
that instruction, every operand as it was. -/
def Obligations.DecodeOfEncode : Prop :=
  ∀ (P : PortParams) (i : Instr), i.wf = true → i.fitsPort P →
    decode (encode P.reqIntWidth i) = .ok i

/-- R74, R204: the physical request decoder rejects exactly an ENCODE whose kind is no type id of the
Command table, naming the kind; whatever it accepts is well formed. -/
def Obligations.DecoderRejectsOnlyIllegalKinds : Prop :=
  ∀ (w : Nat) (p : PhysRequest w),
    (p.op = 2#2 ∧ p.kind.toNat ∉ commandIds →
      decode p = .error (.illegalKind p.kind)) ∧
    (¬ (p.op = 2#2 ∧ p.kind.toNat ∉ commandIds) →
      ∃ i, decode p = .ok i ∧ i.wf = true)

/-- R74, field by field. `op` selects the request kind. `node` and `type_id` are the signed values of
their fields. An ENCODE kind that is a type id of the Command table selects that command. A DECODE is
the row of its identifier's type id. That `p0` and `p1` are the parameters in order, and that a set
`vel_present` supplies the velocity and a set `store` is true, is the model's reading (log
entry 4). -/
def Obligations.PhysicalFieldsAreReadAsNumbered : Prop :=
  ∀ (w : Nat) (p : PhysRequest w),
    (p.op = 0#2 → decode p = .ok (.compose p.node.toInt p.typeId.toInt)) ∧
    (p.op = 1#2 → decode p = .ok (.decompose p.identifier)) ∧
    (p.op = 2#2 →
      (p.kind = 1#8 → decode p = .ok (.setCurrent p.node.toInt p.p0)) ∧
      (p.kind = 3#8 → decode p = .ok (.setRpm p.node.toInt p.p0)) ∧
      (p.kind = 4#8 → decode p = .ok (.setPosition p.node.toInt p.p0)) ∧
      (p.kind = 64#8 → decode p = .ok (.setKp p.node.toInt p.p0)) ∧
      (p.kind = 65#8 → decode p = .ok (.setKi p.node.toInt p.p0)) ∧
      (p.kind = 66#8 → decode p = .ok (.setKd p.node.toInt p.p0)) ∧
      (p.kind = 68#8 → p.velPresent = 0#1 →
        decode p = .ok (.setPositionFloat p.node.toInt p.p0 none)) ∧
      (p.kind = 68#8 → p.velPresent = 1#1 →
        decode p = .ok (.setPositionFloat p.node.toInt p.p0 (some p.p1))) ∧
      (p.kind = 69#8 → decode p = .ok (.setVelocity p.node.toInt p.p0)) ∧
      (p.kind = 70#8 → decode p = .ok (.setAcceleration p.node.toInt p.p0)) ∧
      (p.kind = 71#8 → decode p = .ok (.setDeceleration p.node.toInt p.p0)) ∧
      (p.kind = 72#8 → p.store = 0#1 →
        decode p = .ok (.setStoredPosition p.node.toInt p.p0 false)) ∧
      (p.kind = 72#8 → p.store = 1#1 →
        decode p = .ok (.setStoredPosition p.node.toInt p.p0 true))) ∧
    (p.op = 3#2 →
      (∀ k : StatusKind, p.identifier.toNat / 256 % 256 = (statusTypeId k).toNat →
        decode p = .ok (rowOf k (BitVec.ofNat 16 (p.identifier.toNat / 65536))
          (BitVec.ofNat 8 (p.identifier.toNat % 256)) p.payload)) ∧
      (p.identifier.toNat / 256 % 256 ∉ statusIds →
        decode p = .ok (.noRecord (BitVec.ofNat 16 (p.identifier.toNat / 65536))
          (BitVec.ofNat 8 (p.identifier.toNat / 256 % 256))
          (BitVec.ofNat 8 (p.identifier.toNat % 256)) p.payload)))

/-- A typed request is classified to a well-formed row that stands for exactly that request: no
operand and no identifier bit is dropped. That the ignored identifier bits come back too is the
model's choice: its rows carry them (log entry 12), and no rule asks for it. -/
def Obligations.ClassificationLosesNothing : Prop :=
  ∀ r : Request, (requestInstr r).wf = true ∧ instrRequest (requestInstr r) = r

/-- R62: identifiers that agree in bits 15:0 get the same answer from DECOMPOSE and from DECODE. -/
def Obligations.IdentifierHighBitsIgnored : Prop :=
  ∀ (a b : Ident32) (p : List Byte) (s : State), a.extractLsb' 0 16 = b.extractLsb' 0 16 →
    exec (requestInstr (.decompose a)) s = exec (requestInstr (.decompose b)) s ∧
    exec (requestInstr (.decode a p)) s = exec (requestInstr (.decode b p)) s

/-- Distinct command kinds or distinct nodes never share an identifier; in particular SetPosition
and SetPositionFloat are never mapped onto one another (R128). -/
def Obligations.FrameIdentifiersAreInjective : Prop :=
  ∀ (n n' : Int) (c c' : Command) (s s' t t' : State) (d : Ident29) (e e' : Bool)
    (p p' : List Byte),
    exec (encodeInstr n c) s = .next t → t.responses = s.responses ++ [.frame d e p] →
    exec (encodeInstr n' c') s' = .next t' → t'.responses = s'.responses ++ [.frame d e' p'] →
    n = n' ∧ commandKind c = commandKind c'

/-- R75: the code a response is tagged with; the reserved codes are never produced. -/
def Obligations.ResponseCodes : Prop :=
  (∀ i, responseCode (.ident i) = 0) ∧ (∀ n t, responseCode (.fields n t) = 1) ∧
  (∀ i e p, responseCode (.frame i e p) = 2) ∧ (∀ r, responseCode (.record r) = 3) ∧
  (∀ n t, responseCode (.noRecord n t) = 4) ∧ (∀ i, responseCode (.error .rangeError i) = 8) ∧
  (∀ i, responseCode (.error .formatError i) = 9) ∧
  (∀ i, responseCode (.error .valueOutOfRange i) = 10) ∧
  (∀ i, responseCode (.error .illegalRequest i) = 11) ∧
  (∀ r : Response, (responseCode r).toNat ∉ [5, 6, 7, 12, 13, 14, 15])

/-- R78: a decimal literal denotes the binary64 value nearest to it. Ties going to even is the model's
choice (log entry 7). -/
def Obligations.DecimalLiteralIsNearest : Prop :=
  ∀ (neg : Bool) (digits : Nat) (exp10 : Int),
    |(digits : Rat) * 10 ^ exp10| < 2 ^ 1024 - 2 ^ 970 →
    IsNearest64 ((if neg then -1 else 1) * ((digits : Rat) * 10 ^ exp10))
      (realValue (.dec neg digits exp10))

/-! ### The identifier model -/

/-- R100: COMPOSE. -/
def Obligations.ComposeGivesIdentifierOrRangeError : Prop :=
  ∀ (node typeId : Int) (s : State),
    (isByte node → isByte typeId → exec (.compose node typeId) s =
      .next (afterResponse s (.ident (BitVec.ofInt 29 (node + 256 * typeId))))) ∧
    (¬ isByte node → exec (.compose node typeId) s = .next (afterResponse s (nodeError node))) ∧
    (isByte node → ¬ isByte typeId → exec (.compose node typeId) s =
      .next (afterResponse s (.error .rangeError (.rangeInfo .typeId typeId))))

/-- R101: DECOMPOSE. -/
def Obligations.DecomposeGivesFields : Prop :=
  ∀ (identifier : Ident32) (s : State), exec (.decompose identifier) s =
    .next (afterResponse s (.fields (BitVec.ofNat 8 (identifier.toNat % 256))
      (BitVec.ofNat 8 (identifier.toNat / 256 % 256))))

/-- R102: COMPOSE then DECOMPOSE gives the pair back, and DECOMPOSE then COMPOSE the identifier. -/
def Obligations.ComposeDecomposeRoundTrip : Prop :=
  (∀ (node typeId : Int) (s : State), isByte node → isByte typeId →
    ∃ i : Ident29, exec (.compose node typeId) s = .next (afterResponse s (.ident i)) ∧
      exec (.decompose (i.setWidth 32)) s =
        .next (afterResponse s (.fields (BitVec.ofInt 8 node) (BitVec.ofInt 8 typeId)))) ∧
  (∀ (d : Ident32) (s : State), d.toNat < 65536 →
    ∃ n t : Byte, exec (.decompose d) s = .next (afterResponse s (.fields n t)) ∧
      exec (.compose n.toNat t.toNat) s = .next (afterResponse s (.ident (d.setWidth 29))))

/-! ### The command encoder -/

/-- R117: SetCurrent. -/
def Obligations.SetCurrentBehaviour : Prop := ScaledCommand .setCurrent 1 1000 .current

/-- R118: SetRpm. -/
def Obligations.SetRpmBehaviour : Prop := ScaledCommand .setRpm 3 1 .rpm

/-- R119: SetPosition. -/
def Obligations.SetPositionBehaviour : Prop := ScaledCommand .setPosition 4 1000000 .pos

/-- R120, R121, R122: SetKp, SetKi, SetKd. -/
def Obligations.GainCommandsBehaviour : Prop :=
  FloatCommand .setKp 64 .kp ∧ FloatCommand .setKi 65 .ki ∧ FloatCommand .setKd 66 .kd

/-- R124, R125, R126: SetVelocity, SetAcceleration, SetDeceleration. -/
def Obligations.MotionCommandsBehaviour : Prop :=
  FloatCommand .setVelocity 69 .vel ∧ FloatCommand .setAcceleration 70 .acc ∧
  FloatCommand .setDeceleration 71 .dec

/-- R123: SetPositionFloat. -/
def Obligations.SetPositionFloatBehaviour : Prop :=
  ∀ (node : Int) (pos : F64) (s : State),
    (∀ vel, ¬ isByte node →
      exec (.setPositionFloat node pos vel) s = .next (afterResponse s (nodeError node))) ∧
    (∀ vel, isByte node → overflows32 pos →
      exec (.setPositionFloat node pos vel) s = .next (afterResponse s (valueError .pos))) ∧
    (isByte node → ¬ overflows32 pos → exec (.setPositionFloat node pos none) s =
      .next (afterResponse s (frameTo node 68 (bytesOf32 (float32Bits pos))))) ∧
    (∀ v, isByte node → ¬ overflows32 pos → ¬ strictlyPositive v →
      exec (.setPositionFloat node pos (some v)) s =
        .next (afterResponse s (frameTo node 68 (bytesOf32 (float32Bits pos))))) ∧
    (∀ v, isByte node → ¬ overflows32 pos → strictlyPositive v → overflows32 v →
      exec (.setPositionFloat node pos (some v)) s =
        .next (afterResponse s (valueError .vel))) ∧
    (∀ v, isByte node → ¬ overflows32 pos → strictlyPositive v → ¬ overflows32 v →
      exec (.setPositionFloat node pos (some v)) s = .next (afterResponse s
        (frameTo node 68 (bytesOf32 (float32Bits pos) ++ bytesOf32 (rne32 v)))))

/-- R127: SetStoredPosition. -/
def Obligations.SetStoredPositionBehaviour : Prop :=
  ∀ (node : Int) (pos : F64) (store : Bool) (s : State),
    (¬ isByte node →
      exec (.setStoredPosition node pos store) s = .next (afterResponse s (nodeError node))) ∧
    (isByte node → ¬ overflows32 pos → exec (.setStoredPosition node pos store) s =
      .next (afterResponse s (frameTo node 72
        (bytesOf32 (float32Bits pos) ++ [if store then 1#8 else 0#8])))) ∧
    (isByte node → overflows32 pos →
      exec (.setStoredPosition node pos store) s = .next (afterResponse s (valueError .pos)))

/-- R111: `mul64` is the real product rounded to the nearest binary64 value, ties to even, and an
infinity of the product's sign from `2^1024 - 2^970` on. -/
def Obligations.Mul64IsTheNearestProduct : Prop :=
  ∀ (x : F64) (F : Nat), isFinite x →
    f64Neg (mul64 x F) = f64Neg x ∧
    (|f64Value x * F| < 2 ^ 1024 - 2 ^ 970 → IsNearest64 (f64Value x * F) (mul64 x F)) ∧
    (2 ^ 1024 - 2 ^ 970 ≤ |f64Value x * F| → isInf (mul64 x F))

/-- R111: `mul64(x, 1) = x` exactly, and `trunc` is the integer part toward zero. -/
def Obligations.TruncIsTheIntegerPart : Prop :=
  ∀ x : F64, isFinite x →
    mul64 x 1 = x ∧
    |(trunc x : Rat)| ≤ |f64Value x| ∧ |f64Value x| < |(trunc x : Rat)| + 1 ∧
    0 ≤ (trunc x : Rat) * f64Value x

/-- R113: `rne32` is the nearest binary32 value, ties to even, up to the overflow threshold
`2^128 - 2^103`, from which on a finite value gives infinity; infinities and the sign are kept. -/
def Obligations.Rne32IsTheNearestSingle : Prop :=
  ∀ x : F64,
    (isNaN x = false → (rne32 x).msb = f64Neg x) ∧
    (isInf x → isInf32 (rne32 x)) ∧
    (isFinite x → |f64Value x| < 2 ^ 128 - 2 ^ 103 → IsNearest32 (f64Value x) (rne32 x)) ∧
    (isFinite x → 2 ^ 128 - 2 ^ 103 ≤ |f64Value x| → isInf32 (rne32 x))

/-- R113: what a float field holds. A NaN gives the canonical one, an infinity itself, a finite
value from `2^128 - 2^103` on is refused, and any other gives the nearest binary32 datum, ties to
even, with its own sign (zeros and underflow included). -/
def Obligations.FloatFieldHoldsTheNearestSingle : Prop :=
  ∀ (x : F64) (field : ParamField),
    (isNaN x → float32 x field = .ok 0x7FC00000#32) ∧
    (x = 0x7FF0000000000000#64 → float32 x field = .ok 0x7F800000#32) ∧
    (x = 0xFFF0000000000000#64 → float32 x field = .ok 0xFF800000#32) ∧
    (isFinite x → 2 ^ 128 - 2 ^ 103 ≤ |f64Value x| → float32 x field = raiseValue field) ∧
    (isFinite x → |f64Value x| < 2 ^ 128 - 2 ^ 103 → ∃ y : F32, float32 x field = .ok y ∧
      y.msb = x.msb ∧ IsNearest32 (f64Value x) y)

/-- R112: an rpm whose integer part toward zero is an int32 is stored as that integer: exactly when
it is integral, truncated toward zero when it is not. -/
def Obligations.RpmIsTruncatedTowardZero : Prop :=
  ∀ (node n : Int) (x : F64) (s : State), isByte node → isInt32 n → isFinite x →
    |(n : Rat)| ≤ |f64Value x| → |f64Value x| < |(n : Rat)| + 1 → 0 ≤ (n : Rat) * f64Value x →
    exec (.setRpm node x) s =
      .next (afterResponse s (frameTo node 3 (bytesOf32 (BitVec.ofInt 32 n))))

/-- R129: what a scaled-int32 field holds is within `(1 + 2^-22) / F` of the parameter, on the same
side of zero, and no larger than the rounded product. -/
def Obligations.ScalingRoundTripBound : Prop :=
  ∀ (x : F64) (F : Nat) (field : ParamField) (b : BitVec 32), 0 < F →
    scaledInt32 x F field = .ok b →
    0 ≤ (b.toInt : Rat) * f64Value x ∧
    |(b.toInt : Rat) / F| ≤ |f64Value x| + |f64Value (mul64 x F) - f64Value x * F| / F ∧
    |f64Value x - (b.toInt : Rat) / F| < (1 + 1 / 2 ^ 22) / F

/-! ### The telemetry decoder -/

/-- R154: Status. -/
def Obligations.StatusBehaviour : Prop :=
  ShortPayloadFails .status 9 8 ∧
  ∀ (hi : BitVec 16) (node b0 b1 b2 b3 b4 b5 b6 b7 : Byte) (rest : List Byte) (s : State),
    exec (.status hi node (b0 :: b1 :: b2 :: b3 :: b4 :: b5 :: b6 :: b7 :: rest)) s =
      .next (afterResponse s (.record (.status node
        (fieldOf (b0 ++ b1 ++ b2 ++ b3) 1) (fieldOf (b4 ++ b5) 10) (fieldOf (b6 ++ b7) 1000))))

/-- R155, R156: Status2 and Status3. -/
def Obligations.ChargeStatusBehaviour : Prop :=
  ShortPayloadFails .status2 14 8 ∧ ShortPayloadFails .status3 15 8 ∧
  ∀ (hi : BitVec 16) (node b0 b1 b2 b3 b4 b5 b6 b7 : Byte) (rest : List Byte) (s : State),
    exec (.status2 hi node (b0 :: b1 :: b2 :: b3 :: b4 :: b5 :: b6 :: b7 :: rest)) s =
      .next (afterResponse s (.record (.status2 node
        (fieldOf (b0 ++ b1 ++ b2 ++ b3) 10000) (fieldOf (b4 ++ b5 ++ b6 ++ b7) 10000)))) ∧
    exec (.status3 hi node (b0 :: b1 :: b2 :: b3 :: b4 :: b5 :: b6 :: b7 :: rest)) s =
      .next (afterResponse s (.record (.status3 node
        (fieldOf (b0 ++ b1 ++ b2 ++ b3) 10000) (fieldOf (b4 ++ b5 ++ b6 ++ b7) 10000))))

/-- R157: Status4. -/
def Obligations.Status4Behaviour : Prop :=
  ShortPayloadFails .status4 16 8 ∧
  ∀ (hi : BitVec 16) (node b0 b1 b2 b3 b4 b5 b6 b7 : Byte) (rest : List Byte) (s : State),
    exec (.status4 hi node (b0 :: b1 :: b2 :: b3 :: b4 :: b5 :: b6 :: b7 :: rest)) s =
      .next (afterResponse s (.record (.status4 node
        (fieldOf (b0 ++ b1) 10) (fieldOf (b2 ++ b3) 10) (fieldOf (b4 ++ b5) 10)
        (fieldOf (b6 ++ b7) 50))))

/-- R158: Status5; six bytes are enough. -/
def Obligations.Status5Behaviour : Prop :=
  ShortPayloadFails .status5 27 6 ∧
  ∀ (hi : BitVec 16) (node b0 b1 b2 b3 b4 b5 : Byte) (rest : List Byte) (s : State),
    exec (.status5 hi node (b0 :: b1 :: b2 :: b3 :: b4 :: b5 :: rest)) s =
      .next (afterResponse s (.record (.status5 node
        (fieldOf (b0 ++ b1 ++ b2 ++ b3) 6) (fieldOf (b4 ++ b5) 10))))

/-- R159: Status6. -/
def Obligations.Status6Behaviour : Prop :=
  ShortPayloadFails .status6 28 8 ∧
  ∀ (hi : BitVec 16) (node b0 b1 b2 b3 b4 b5 b6 b7 : Byte) (rest : List Byte) (s : State),
    exec (.status6 hi node (b0 :: b1 :: b2 :: b3 :: b4 :: b5 :: b6 :: b7 :: rest)) s =
      .next (afterResponse s (.record (.status6 node
        (fieldOf (b0 ++ b1) 1000) (fieldOf (b2 ++ b3) 1000) (fieldOf (b4 ++ b5) 1000)
        (fieldOf (b6 ++ b7) 1000))))

/-- A type id outside the Status table gives NoRecord, whatever the payload (R160). The first clause
speaks of every no-record row: that an ill-formed one, with a type id of the Status table, answers
NoRecord too is the model's choice (log entry 12). -/
def Obligations.NoRecordBehaviour : Prop :=
  (∀ (hi : BitVec 16) (typeId node : Byte) (p : List Byte) (s : State),
    exec (.noRecord hi typeId node p) s = .next (afterResponse s (.noRecord node typeId))) ∧
  (∀ (d : Ident32) (p : List Byte) (s : State),
    d.toNat / 256 % 256 ∉ statusIds →
    exec (requestInstr (.decode d p)) s =
      .next (afterResponse s (.noRecord (BitVec.ofNat 8 (d.toNat % 256))
        (BitVec.ofNat 8 (d.toNat / 256 % 256)))))

/-- R150: DECODE looks the type id up first; a listed one with a short payload is a FormatError, with
enough bytes it is the record its row gives for the node of the identifier; an unlisted one is
NoRecord, whatever the payload. -/
def Obligations.DecodeClassifiesThenChecksLength : Prop :=
  ∀ (d : Ident32) (p : List Byte) (s : State),
    (∀ k : StatusKind, d.toNat / 256 % 256 = (statusTypeId k).toNat →
      (p.length < reqLen k → exec (requestInstr (.decode d p)) s =
        .next (afterResponse s (shortError (statusTypeId k) p.length (reqLen k)))) ∧
      (reqLen k ≤ p.length → ∃ rec : TelemetryRecord, rec.legal ∧
        exec (requestInstr (.decode d p)) s = .next (afterResponse s (.record rec)) ∧
        exec (rowOf k (BitVec.ofNat 16 (d.toNat / 65536)) (BitVec.ofNat 8 (d.toNat % 256)) p) s =
          .next (afterResponse s (.record rec)))) ∧
    (d.toNat / 256 % 256 ∉ statusIds → exec (requestInstr (.decode d p)) s =
      .next (afterResponse s (.noRecord (BitVec.ofNat 8 (d.toNat % 256))
        (BitVec.ofNat 8 (d.toNat / 256 % 256)))))

/-- R161: bytes at or beyond the required length have no effect on the response. -/
def Obligations.TrailingBytesIgnored : Prop :=
  ∀ (d : Ident32) (p q q' : List Byte) (s : State) (k : StatusKind),
    d.toNat / 256 % 256 = (statusTypeId k).toNat → p.length = reqLen k →
    exec (requestInstr (.decode d (p ++ q))) s = exec (requestInstr (.decode d (p ++ q'))) s

/-- R152: a scaled field holds its raw integer, its divisor and their exact quotient; the binary64
view of it is the value nearest `raw / div`, always finite, and the raw integer itself when the
divisor is 1. -/
def Obligations.F64ViewIsTheNearestQuotient : Prop :=
  (∀ f : ScaledField, 1 ≤ f.div → |f.raw| ≤ 2 ^ 31 →
    isFinite (f64view f) ∧ IsNearest64 ((f.raw : Rat) / (f.div : Rat)) (f64view f) ∧
    (f.div = 1 → f64Value (f64view f) = f.raw)) ∧
  (∀ (p : List Byte) (off W d : Nat), scale p off W d =
    ⟨fieldInt p off W, d, (fieldInt p off W : Rat) / (d : Rat)⟩)

/-! ### The machine -/

/-- R30, R241: after reset the slot is empty. -/
def Obligations.ResetLeavesTheSlotEmpty : Prop :=
  State.reset.inflight = none

/-- A reset empties the slot, and no response is delivered for what was in it (R240). That a reset
next in line is taken before the answer is the model's choice (log entry 2). -/
def Obligations.ResetDiscardsTheRequest : Prop :=
  ∀ (s : State) (rest : List Input), s.inputs = .reset :: rest →
    step s = .next { s with inflight := none, inputs := rest }

/-- An idle block accepts the request offered, and nothing else changes (R29). That acceptance is a
step of its own, which does not answer yet, is the model's choice (log entry 2): R29 also allows one
atomic step. -/
def Obligations.IdleBlockAcceptsRequest : Prop :=
  ∀ (s : State) (r : Request) (rest : List Input), s.inflight = none →
    s.inputs = .request r :: rest →
    step s = .next { s with inflight := some r, inputs := rest }

/-- With a request in flight and no reset, a step is the meaning of that request's instruction; it
takes nothing from the port, empties the slot and delivers one response (R29). That the answer is a
step of its own, and a reset comes before it, is the model's choice (log entry 2). -/
def Obligations.RequestInFlightIsAnswered : Prop :=
  ∀ (s : State) (r : Request), s.inflight = some r → noReset s.inputs →
    step s = exec (requestInstr r) s ∧
    ∃ a : Response, step s = .next (afterResponse s a)

/-- A step runs the decoded instruction: a physical request that decodes to `i`, at the port of an
idle block, is accepted as the request whose instruction is `i`, and the step after it is `exec i`,
unless a reset comes first. That these are two steps is the model's choice (log entry 2). -/
def Obligations.StepRunsTheDecodedInstruction : Prop :=
  ∀ (s : State) (w : Nat) (p : PhysRequest w) (i : Instr) (rest : List Input),
    s.inflight = none → s.inputs = .physical w p :: rest → decode p = .ok i →
    step s = .next { s with inflight := some (instrRequest i), inputs := rest } ∧
    (noReset rest →
      step { s with inflight := some (instrRequest i), inputs := rest } =
        exec i { s with inflight := some (instrRequest i), inputs := rest })

/-- A physical ENCODE whose kind is outside the Command table is answered IllegalRequest with that
kind, whatever its other fields hold, and nothing else is ever answered so (R204). That the answer
comes at the port of an idle block, in one step, the slot staying empty, is the model's choice (log
entry 3). -/
def Obligations.IllegalKindIsAnsweredInBand : Prop :=
  (∀ (s : State) (w : Nat) (p : PhysRequest w) (rest : List Input), s.inflight = none →
    s.inputs = .physical w p :: rest → p.op = 2#2 → p.kind.toNat ∉ commandIds →
    step s = .next { s with
      inputs := rest,
      responses := s.responses ++ [.error .illegalRequest (.illegalInfo p.kind)] }) ∧
  (∀ (s t : State) (info : ErrorInfo), step s = .next t →
    t.responses = s.responses ++ [.error .illegalRequest info] →
    s.inflight = none ∧ ∃ (w : Nat) (p : PhysRequest w) (rest : List Input),
      s.inputs = .physical w p :: rest ∧ p.op = 2#2 ∧ p.kind.toNat ∉ commandIds ∧
      info = .illegalInfo p.kind)

/-- An idle block with nothing offered stays as it is. A quiet moment, the model's own event (log
entry 2), only passes. -/
def Obligations.IdleBlockHoldsStill : Prop :=
  ∀ s : State, s.inflight = none →
    (s.inputs = [] → step s = .next s) ∧
    (∀ rest, s.inputs = .quiet :: rest → step s = .next { s with inputs := rest })

/-- R209: there is no trap: every step of every state answers a next state. -/
def Obligations.StepNeverStops : Prop := ∀ s : State, ∃ t : State, step s = .next t

/-- R20: the response to a request is a function of the request alone. -/
def Obligations.ResponseDependsOnRequestAlone : Prop :=
  ∃ respond : Request → Response, ∀ (s : State) (r : Request), s.inflight = some r →
    noReset s.inputs → step s = .next (afterResponse s (respond r))

/-- The block answers only what was asked (R243): a step delivers nothing, or one response after all
earlier ones, and then a request was in flight, or the block was idle and a physical ENCODE whose
kind is outside the Command table was at its port. That such a request is answered at the port is the
model's choice (log entry 3). -/
def Obligations.OnlyRequestsAreAnswered : Prop :=
  ∀ s t : State, step s = .next t →
    t.responses = s.responses ∨
    ∃ a : Response, t.responses = s.responses ++ [a] ∧ t.inflight = none ∧
      (s.inflight.isSome ∨ s.inflight = none ∧
        ∃ (w : Nat) (p : PhysRequest w) (rest : List Input),
          s.inputs = .physical w p :: rest ∧ p.op = 2#2 ∧ p.kind.toNat ∉ commandIds)

/-- Every response a step delivers is one the spec allows (R61, R67, R70, R163, R206): legality of
the responses delivered is kept by every step, from every state that has it. -/
def Obligations.StepKeepsResponsesLegal : Prop :=
  ∀ s t : State, s.legal → step s = .next t → t.legal

/-- The base of `StepKeepsResponsesLegal`, and no more: the list of delivered responses is empty at
reset, which is the model's choice (log entry 1), and over an empty list any legality holds. -/
def Obligations.ResetResponsesLegal : Prop := State.reset.legal

/-- Requests offered one after another to an idle block are answered one after another, each as it
would be alone, errors included (R51, R210); what comes after them is untouched. That each takes two
steps is the model's choice (log entry 2). -/
def Obligations.RequestsAnsweredInOrder : Prop :=
  ∃ respond : Request → Response,
    (∀ (r : Request) (s : State),
      exec (requestInstr r) s = .next (afterResponse s (respond r))) ∧
    ∀ (rs : List Request) (s : State) (tail : List Input), s.inflight = none → noReset tail →
      s.inputs = rs.map Input.request ++ tail →
      Host.Core.run core (2 * rs.length) s =
        .next { s with inputs := tail, responses := s.responses ++ rs.map respond }

/-- Channels are independent (R31, R51): a step of one changes that one alone, as its own step does,
and steps of two different channels give the same whatever their order. That channels are a list of
states of which one moves at a time is the model's choice (log entry 10), and so are that a reset
reaches its own channel only (log entry 14) and that each channel has a slot of its own (log
entry 15). -/
def Obligations.ChannelsAreIndependent : Prop :=
  (∀ (cs : Channels) (k : Nat) (h : k < cs.length), ∃ t : State, step cs[k] = .next t ∧
    stepChannel k cs = .next (cs.set k t)) ∧
  (∀ (cs a b c d : Channels) (j k : Nat), j ≠ k →
    stepChannel j cs = .next a → stepChannel k a = .next b →
    stepChannel k cs = .next c → stepChannel j c = .next d → b = d)
end

