-- ==== Sys2Proof/Laws/Ops.lean ====
section
/-!
SUPPORT. What each shared operation can do, said once: the payload spaces, the identifier model, the
operand conversions.
-/

namespace Sys2Proof.Machine

/-! ### The output payload -/

/-- Read after write, at the offset written. -/
@[simp] theorem readByte_writeByte_same (m : Memory) (off : Nat) (v : Byte) :
    readByte (writeByte m off v) off = some v := by
  induction m with
  | nil => simp [writeByte, readByte]
  | cons c m ih =>
    obtain ⟨a, b⟩ := c
    unfold writeByte
    split
    · simp [readByte]
    · split
      · simp [readByte]
      · rename_i h1 h2
        have : a ≠ off := fun h => h2 h.symm
        simp [readByte, this, ih]

/-- A write leaves every other offset alone. -/
theorem readByte_writeByte_other (m : Memory) (off a : Nat) (v : Byte) (h : a ≠ off) :
    readByte (writeByte m off v) a = readByte m a := by
  induction m with
  | nil => simp [writeByte, readByte, h.symm]
  | cons c m ih =>
    obtain ⟨a', b⟩ := c
    unfold writeByte
    split
    · simp [readByte, h.symm]
    · split
      · rename_i h2; subst h2; simp [readByte, h.symm]
      · simp [readByte, ih]

/-- The offsets after a write are those before it and the one written. -/
theorem mem_writeByte {m : Memory} {off : Nat} {v : Byte} {c : Host.Cell}
    (h : c ∈ writeByte m off v) : c.1 = off ∨ c ∈ m := by
  induction m with
  | nil => simp_all [writeByte]
  | cons d m ih =>
    obtain ⟨a, b⟩ := d
    unfold writeByte at h
    split at h
    · simp at h; rcases h with rfl | rfl | h <;> simp_all
    · split at h
      · simp at h; rcases h with rfl | h <;> simp_all
      · simp at h
        rcases h with rfl | h
        · simp
        · rcases ih h with h | h <;> simp_all

/-- A write keeps the canonical form. -/
theorem writeByte_wf {m : Memory} (off : Nat) (v : Byte) (h : m.wf) : (writeByte m off v).wf := by
  induction m with
  | nil => simp [writeByte, Memory.wf]
  | cons d m ih =>
    obtain ⟨a, b⟩ := d
    obtain ⟨hd, hm⟩ := List.pairwise_cons.1 h
    unfold writeByte
    split
    · rename_i hlt
      refine List.pairwise_cons.2 ⟨fun c hc => ?_, h⟩
      rcases List.mem_cons.1 hc with rfl | hc
      · exact hlt
      · exact hlt.trans (hd c hc)
    · split
      · rename_i heq; subst heq
        exact List.pairwise_cons.2 ⟨hd, hm⟩
      · refine List.pairwise_cons.2 ⟨fun c hc => ?_, ih hm⟩
        rcases mem_writeByte hc with h' | h'
        · show a < c.1
          rw [h']; omega
        · exact hd c h'

theorem writeBytes_wf {m : Memory} (off : Nat) (bs : List Byte) (h : m.wf) :
    (writeBytes m off bs).wf := by
  induction bs generalizing m off with
  | nil => exact h
  | cons b bs ih => exact ih (off + 1) (writeByte_wf off b h)

/-- `MemWrite` keeps the canonical form. -/
theorem memWrite_wf {m : Memory} (off n : Nat) (v : BitVec (8 * n)) (h : m.wf) :
    (memWrite m off n v).wf :=
  writeBytes_wf off _ h

/-- A run of writes: offset `off + k` holds byte `k` of the run. -/
theorem readByte_writeBytes (m : Memory) (off : Nat) (bs : List Byte) (a : Nat) :
    readByte (writeBytes m off bs) a =
      if off ≤ a ∧ a < off + bs.length then bs[a - off]? else readByte m a := by
  induction bs generalizing m off with
  | nil => simp [writeBytes]
  | cons b bs ih =>
    rw [writeBytes, ih]
    rcases Nat.lt_trichotomy a off with h | h | h
    · rw [if_neg (by omega), if_neg (by omega), readByte_writeByte_other _ _ _ _ (by omega)]
    · subst h
      rw [if_neg (by omega), if_pos (by simp), readByte_writeByte_same]
      simp
    · obtain ⟨k, rfl⟩ := Nat.exists_eq_add_of_lt h
      simp only [List.length_cons]
      split <;> rename_i h1
      · rw [if_pos (by omega), show off + k + 1 - off = k + 1 by omega,
          show off + k + 1 - (off + 1) = k by omega, List.getElem?_cons_succ]
      · rw [if_neg (by omega), readByte_writeByte_other _ _ _ _ (by omega)]

@[simp] theorem length_beBytes (n : Nat) (v : BitVec (8 * n)) : (beBytes n v).length = n := by
  simp [beBytes]

/-- The payload formats P_I32 and P_F32, byte by byte (R68). -/
theorem payloadBytes_word (v : BitVec 32) :
    payloadBytes (memWrite [] 0 4 v) =
      [v.extractLsb' 24 8, v.extractLsb' 16 8, v.extractLsb' 8 8, v.extractLsb' 0 8] := rfl

/-- The payload format P_F32F32, byte by byte (R68). -/
theorem payloadBytes_two_words (v u : BitVec 32) :
    payloadBytes (memWrite (memWrite [] 0 4 v) 4 4 u) =
      [v.extractLsb' 24 8, v.extractLsb' 16 8, v.extractLsb' 8 8, v.extractLsb' 0 8,
       u.extractLsb' 24 8, u.extractLsb' 16 8, u.extractLsb' 8 8, u.extractLsb' 0 8] := rfl

/-- The payload format P_F32I8, byte by byte (R68). -/
theorem payloadBytes_word_byte (v : BitVec 32) (b : BitVec 8) :
    payloadBytes (memWrite (memWrite [] 0 4 v) 4 1 b) =
      [v.extractLsb' 24 8, v.extractLsb' 16 8, v.extractLsb' 8 8, v.extractLsb' 0 8,
       b.extractLsb' 0 8] := rfl

/-! ### The identifier model -/

@[simp] theorem inByteRange_iff (n : Int) : inByteRange n = true ↔ 0 ≤ n ∧ n ≤ 255 := by
  simp [inByteRange]

/-- Concatenation as arithmetic. -/
theorem toNat_append_eq {a b : Nat} (x : BitVec a) (y : BitVec b) :
    (x ++ y).toNat = x.toNat * 2 ^ b + y.toNat := by
  rw [BitVec.toNat_append, Nat.shiftLeft_eq, Nat.mul_comm, ← Nat.two_pow_add_eq_or_of_lt y.isLt]

theorem ident29_toNat (t n : Byte) : (ident29 t n).toNat = n.toNat + 256 * t.toNat := by
  have h : (ident29 t n).toNat = ((0 : BitVec 13) ++ t ++ n).toNat := rfl
  rw [h, toNat_append_eq, toNat_append_eq]
  simp
  omega

theorem ident32_toNat (hi : BitVec 16) (t n : Byte) :
    (ident32 hi t n).toNat = n.toNat + 256 * t.toNat + 65536 * hi.toNat := by
  have h : (ident32 hi t n).toNat = (hi ++ t ++ n).toNat := rfl
  rw [h, toNat_append_eq, toNat_append_eq]
  omega

theorem nodeField_toNat (d : Ident32) : (nodeField d).toNat = d.toNat % 256 := by
  simp [nodeField, BitVec.extractLsb'_toNat]

theorem typeIdField_toNat (d : Ident32) : (typeIdField d).toNat = d.toNat / 256 % 256 := by
  simp [typeIdField, BitVec.extractLsb'_toNat, Nat.shiftRight_eq_div_pow]

theorem ignoredField_toNat (d : Ident32) : (ignoredField d).toNat = d.toNat / 65536 := by
  have := d.isLt
  simp [ignoredField, BitVec.extractLsb'_toNat, Nat.shiftRight_eq_div_pow]
  omega

/-- The three fields of a built identifier. -/
theorem fields_ident32 (hi : BitVec 16) (t n : Byte) :
    ignoredField (ident32 hi t n) = hi ∧ typeIdField (ident32 hi t n) = t ∧
      nodeField (ident32 hi t n) = n := by
  have h1 := hi.isLt
  have h2 := t.isLt
  have h3 := n.isLt
  refine ⟨?_, ?_, ?_⟩ <;> apply BitVec.eq_of_toNat_eq <;>
    simp only [ignoredField_toNat, typeIdField_toNat, nodeField_toNat, ident32_toNat] <;> omega

/-- What the COMPOSE computation can do. -/
theorem composeIdent_cases (node typeId : Int) :
    (¬ (0 ≤ node ∧ node ≤ 255) ∧ composeIdent node typeId = raiseRange .node node) ∨
    ((0 ≤ node ∧ node ≤ 255) ∧ ¬ (0 ≤ typeId ∧ typeId ≤ 255) ∧
      composeIdent node typeId = raiseRange .typeId typeId) ∨
    ((0 ≤ node ∧ node ≤ 255) ∧ (0 ≤ typeId ∧ typeId ≤ 255) ∧
      composeIdent node typeId = .ok (ident29 (twos 8 typeId) (twos 8 node))) := by
  unfold composeIdent
  rw [← inByteRange_iff, ← inByteRange_iff]
  cases inByteRange node <;> cases inByteRange typeId <;> simp

/-- A command's type id is in range, so within ENCODE a RangeError names the node (R103). -/
theorem commandTypeId_range (k : CommandKind) :
    (0 : Int) ≤ (commandTypeId k).toNat ∧ ((commandTypeId k).toNat : Int) ≤ 255 := by
  have := (commandTypeId k).isLt
  omega

/-! ### Operand conversions -/

/-- What ScaledInt32 can do: raise its field, or give an int32 (R111). -/
theorem scaledInt32_cases (x : F64) (F : Nat) (field : ParamField) :
    ((isNaN x ∨ isInf x ∨ isInf (mul64 x F) ∨
        trunc (mul64 x F) < -2 ^ 31 ∨ 2 ^ 31 - 1 < trunc (mul64 x F)) ∧
      scaledInt32 x F field = raiseValue field) ∨
    (isNaN x = false ∧ isInf x = false ∧ isInf (mul64 x F) = false ∧
      -2 ^ 31 ≤ trunc (mul64 x F) ∧ trunc (mul64 x F) ≤ 2 ^ 31 - 1 ∧
      scaledInt32 x F field = .ok (twos 32 (trunc (mul64 x F)))) := by
  unfold scaledInt32
  cases isNaN x <;> cases isInf x <;> cases isInf (mul64 x F) <;> simp
  by_cases h : trunc (mul64 x F) < -2147483648 ∨ 2147483647 < trunc (mul64 x F)
  · exact .inl ⟨h, fun h1 h2 => by omega⟩
  · exact .inr ⟨by omega, by omega, fun h1 => absurd h1 h⟩

/-- What Float32 can do (R113). -/
theorem float32_cases (x : F64) (field : ParamField) :
    (isNaN x = true ∧ float32 x field = .ok canonicalNaN32) ∨
    (isNaN x = false ∧ isInf32 (rne32 x) = true ∧ isFinite x = true ∧
      float32 x field = raiseValue field) ∨
    (isNaN x = false ∧ ¬ (isInf32 (rne32 x) = true ∧ isFinite x = true) ∧
      float32 x field = .ok (rne32 x)) := by
  unfold float32
  cases isNaN x <;> cases isInf32 (rne32 x) <;> cases isFinite x <;> simp

end Sys2Proof.Machine
end

