-- ==== Sys2Proof/Laws/Rounding.lean ====
section
/-!
SUPPORT. Rounding to a floating-point format, said once: `FloatFormat.units` is strictly increasing in
the encoding, `FloatFormat.roundMag` gives the encoding whose units are nearest to the quotient, ties
to even, and infinity exactly from the midpoint above the largest finite datum. All in whole units;
`binary64` and `binary32` both meet the hypotheses (`binary64_ok`, `binary32_ok`).
-/

namespace Sys2Proof.Machine

/-- The formats the rounding lemmas speak of. -/
abbrev FloatFormat.ok (fmt : FloatFormat) : Prop := 2 ≤ fmt.prec ∧ 2 ≤ fmt.expBits

theorem binary64_ok : binary64.ok := by decide

theorem binary32_ok : binary32.ok := by decide

/-! ### Encodings and units -/

/-- An encoding built from a shift and a significand stands for the significand shifted, also where
the significand has grown to the next power of two. -/
theorem FloatFormat.units_shift (fmt : FloatFormat) (q sig : Nat)
    (hs : sig ≤ 2 * 2 ^ (fmt.prec - 1)) (hq : q = 0 ∨ 2 ^ (fmt.prec - 1) ≤ sig) :
    fmt.units (q * 2 ^ (fmt.prec - 1) + sig) = sig * 2 ^ q := by
  unfold FloatFormat.units
  have hP : 0 < 2 ^ (fmt.prec - 1) := by positivity
  generalize 2 ^ (fmt.prec - 1) = P at *
  rcases Nat.lt_or_ge sig P with h | h
  · obtain rfl : q = 0 := by omega
    simp [Nat.div_eq_of_lt h, Nat.mod_eq_of_lt h]
  · rcases Nat.lt_or_ge sig (2 * P) with h2 | h2
    · have he : q * P + sig = (sig - P) + P * (q + 1) := by
        rw [Nat.mul_add, Nat.mul_comm P q]; omega
      have hl : sig - P < P := by omega
      rw [he, Nat.add_mul_div_left _ _ hP, Nat.add_mul_mod_self_left, Nat.div_eq_of_lt hl,
        Nat.mod_eq_of_lt hl]
      simp [Nat.add_sub_cancel' h]
    · obtain rfl : sig = 2 * P := by omega
      have he : q * P + 2 * P = 0 + P * (q + 2) := by ring
      rw [he, Nat.add_mul_div_left _ _ hP, Nat.add_mul_mod_self_left]
      simp [Nat.pow_succ]; ring

/-- Every encoding is a shift and a significand. -/
theorem FloatFormat.exists_shift (fmt : FloatFormat) (mag : Nat) :
    ∃ q sig, mag = q * 2 ^ (fmt.prec - 1) + sig ∧ sig < 2 * 2 ^ (fmt.prec - 1) ∧
      (q = 0 ∨ 2 ^ (fmt.prec - 1) ≤ sig) := by
  have hP : 0 < 2 ^ (fmt.prec - 1) := by positivity
  generalize 2 ^ (fmt.prec - 1) = P at *
  have hdm := Nat.div_add_mod mag P
  have hm := Nat.mod_lt mag hP
  rcases Nat.eq_zero_or_pos (mag / P) with h | h
  · exact ⟨0, mag, by simp, by rw [h] at hdm; omega, .inl rfl⟩
  · refine ⟨mag / P - 1, P + mag % P, ?_, by omega, .inr (by omega)⟩
    obtain ⟨e, he⟩ := Nat.exists_eq_add_of_lt h
    rw [he] at hdm ⊢
    simp only [Nat.zero_add, Nat.add_sub_cancel] at hdm ⊢
    nlinarith

theorem FloatFormat.units_strictMono (fmt : FloatFormat) : StrictMono fmt.units := by
  refine strictMono_nat_of_lt_succ fun mag => ?_
  obtain ⟨q, sig, rfl, hs, hq⟩ := fmt.exists_shift mag
  rw [Nat.add_assoc, fmt.units_shift q sig (by omega) hq,
    fmt.units_shift q (sig + 1) (by omega) (by omega)]
  exact Nat.mul_lt_mul_of_pos_right (by omega) (by positivity)

theorem FloatFormat.units_inj (fmt : FloatFormat) {a b : Nat} : fmt.units a = fmt.units b ↔ a = b :=
  fmt.units_strictMono.injective.eq_iff

/-! ### The unbounded rounding -/

/-- Where bits are dropped, the magnitude fills the significand. -/
theorem FloatFormat.dropBits_spec (fmt : FloatFormat) (h : fmt.ok) (whole : Nat) :
    whole < 2 * 2 ^ (fmt.prec - 1) * 2 ^ fmt.dropBits whole ∧
    (fmt.dropBits whole = 0 ∨ 2 ^ (fmt.prec - 1) * 2 ^ fmt.dropBits whole ≤ whole) := by
  have hp : 2 * 2 ^ (fmt.prec - 1) = 2 ^ fmt.prec := by
    rw [← Nat.pow_succ']; congr 1; have := h.1; omega
  unfold FloatFormat.dropBits
  split
  · simp; omega
  · rename_i hw
    have h0 : whole ≠ 0 := by
      rintro rfl; exact hw (by positivity)
    have hl : fmt.prec ≤ whole.log2 := (Nat.le_log2 h0).2 (by omega)
    have h1 := Nat.log2_self_le h0
    have h2 : whole < 2 ^ (whole.log2 + 1) := Nat.lt_log2_self
    have hpp := h.1
    rw [hp, ← Nat.pow_add, ← Nat.pow_add]
    rw [show fmt.prec + (whole.log2 + 1 - fmt.prec) = whole.log2 + 1 by omega,
      show fmt.prec - 1 + (whole.log2 + 1 - fmt.prec) = whole.log2 by omega]
    exact ⟨h2, .inr h1⟩

/-- The bounded rounding is an unbounded one cut off at infinity, and the unbounded one is a shift
and a significand. -/
theorem FloatFormat.roundMag_eq (fmt : FloatFormat) (h : fmt.ok) (num den : Nat) (hd : 0 < den) :
    ∃ q sig, q = fmt.dropBits (num / den) ∧ sig = rneDiv num (den * 2 ^ q) ∧
      fmt.roundMag num den = min fmt.infMag (q * 2 ^ (fmt.prec - 1) + sig) ∧
      sig ≤ 2 * 2 ^ (fmt.prec - 1) ∧ (q = 0 ∨ 2 ^ (fmt.prec - 1) ≤ sig) ∧
      (q = 0 ∨ 2 ^ (fmt.prec - 1) * (den * 2 ^ q) ≤ num) := by
  refine ⟨_, _, rfl, rfl, rfl, ?_⟩
  obtain ⟨h1, h2⟩ := fmt.dropBits_spec h (num / den)
  generalize fmt.dropBits (num / den) = q at *
  have hdq : 0 < den * 2 ^ q := by positivity
  have hlow : q = 0 ∨ 2 ^ (fmt.prec - 1) * (den * 2 ^ q) ≤ num := by
    refine h2.imp id fun h3 => ?_
    have := (Nat.le_div_iff_mul_le hd).1 h3
    nlinarith
  refine ⟨rneDiv_le _ _ _ hdq ?_, hlow.imp id fun h3 => le_rneDiv _ _ _ hdq (by linarith), hlow⟩
  have := (Nat.div_lt_iff_lt_mul hd).1 h1
  nlinarith

/-- The unbounded rounding: its encoding, its error, and that no encoding is nearer; where another
is as near, it is the even one. -/
theorem FloatFormat.roundMag_nearest (fmt : FloatFormat) (h : fmt.ok) (num den : Nat)
    (hd : 0 < den) :
    ∃ raw, fmt.roundMag num den = min fmt.infMag raw ∧
      2 * |(num : Int) - den * fmt.units raw| ≤ den * 2 ^ fmt.dropBits (num / den) ∧
      ∀ c, |(num : Int) - den * fmt.units raw| ≤ |(num : Int) - den * fmt.units c| ∧
        (|(num : Int) - den * fmt.units raw| = |(num : Int) - den * fmt.units c| →
          c = raw ∨ raw % 2 = 0) := by
  obtain ⟨q, sig, hq, hsig, hr, hs, hqs, hlow⟩ := fmt.roundMag_eq h num den hd
  refine ⟨_, hr, ?_⟩
  have hdq : 0 < den * 2 ^ q := by positivity
  have hpar : (q * 2 ^ (fmt.prec - 1) + sig) % 2 = sig % 2 := by
    obtain ⟨k, hk⟩ : ∃ k, fmt.prec - 1 = k + 1 := ⟨fmt.prec - 2, by have := h.1; omega⟩
    rw [hk, Nat.pow_succ, ← Nat.mul_assoc]
    omega
  rw [hpar, fmt.units_shift q sig hs hqs, ← hq]
  have hcast : ((den : Int) * ((sig * 2 ^ q : Nat) : Int)) = ((den * 2 ^ q : Nat) : Int) * sig := by
    push_cast; ring
  rw [hcast, hsig]
  refine ⟨by simpa using rneDiv_error num _ hdq, fun c => ?_⟩
  obtain ⟨q', sig', rfl, hs', hq'⟩ := fmt.exists_shift c
  rw [fmt.units_shift q' sig' (by omega) hq']
  rcases Nat.lt_or_ge q' q with hlt | hge
  · have hpos : q ≠ 0 := by omega
    have hlow' := hlow.resolve_left hpos
    have hup : sig' * 2 ^ q' < 2 ^ (fmt.prec - 1) * 2 ^ q := by
      obtain ⟨k, rfl⟩ := Nat.exists_eq_add_of_lt hlt
      have h1 : sig' * 2 ^ q' < 2 * 2 ^ (fmt.prec - 1) * 2 ^ q' :=
        Nat.mul_lt_mul_of_pos_right hs' (by positivity)
      have h2 : 2 ^ q' ≤ 2 ^ (q' + k) := Nat.pow_le_pow_right (by omega) (by omega)
      calc _ < _ := h1
        _ = 2 ^ (fmt.prec - 1) * (2 * 2 ^ q') := by ring
        _ ≤ 2 ^ (fmt.prec - 1) * (2 * 2 ^ (q' + k)) := by gcongr
        _ = _ := by ring
    have h1 := (rneDiv_nearest num _ hdq (2 ^ (fmt.prec - 1) : Nat)).1
    have h2 : (den : Int) * ((sig' * 2 ^ q' : Nat) : Int) <
        ((den * 2 ^ q : Nat) : Int) * ((2 ^ (fmt.prec - 1) : Nat) : Int) := by
      have : den * (sig' * 2 ^ q') < den * (2 ^ (fmt.prec - 1) * 2 ^ q) :=
        Nat.mul_lt_mul_of_pos_left hup hd
      calc _ = ((den * (sig' * 2 ^ q') : Nat) : Int) := by push_cast; ring
        _ < ((den * (2 ^ (fmt.prec - 1) * 2 ^ q) : Nat) : Int) := by exact_mod_cast this
        _ = _ := by push_cast; ring
    have h3 : ((den * 2 ^ q : Nat) : Int) * ((2 ^ (fmt.prec - 1) : Nat) : Int) ≤ num := by
      calc _ = ((2 ^ (fmt.prec - 1) * (den * 2 ^ q) : Nat) : Int) := by push_cast; ring
        _ ≤ _ := by exact_mod_cast hlow'
    rw [abs_of_nonneg (a := (num : Int) - ((den * 2 ^ q : Nat) : Int) *
      ((2 ^ (fmt.prec - 1) : Nat) : Int)) (by linarith)] at h1
    rw [abs_of_nonneg (a := (num : Int) - den * ((sig' * 2 ^ q' : Nat) : Int)) (by linarith)]
    exact ⟨by linarith, fun heq => by exfalso; linarith⟩
  · obtain ⟨k, rfl⟩ := Nat.exists_eq_add_of_le hge
    have h1 := rneDiv_nearest num _ hdq ((sig' * 2 ^ k : Nat) : Int)
    have hc : (den : Int) * ((sig' * 2 ^ (q + k) : Nat) : Int) =
        ((den * 2 ^ q : Nat) : Int) * ((sig' * 2 ^ k : Nat) : Int) := by
      push_cast; ring
    rw [hc]
    refine ⟨h1.1, fun heq => (h1.2 heq).imp (fun he => ?_) id⟩
    have he' : sig' * 2 ^ k = sig := by rw [hsig]; exact_mod_cast he
    refine fmt.units_inj.1 ?_
    rw [← hsig, fmt.units_shift q sig hs hqs, fmt.units_shift (q + k) sig' (by omega) hq', ← he']
    ring

/-! ### Exact values and overflow -/

/-- A magnitude that is an encoding's is not changed. -/
theorem FloatFormat.roundMag_units (fmt : FloatFormat) (h : fmt.ok) (mag den : Nat) (hd : 0 < den)
    (hm : mag ≤ fmt.infMag) : fmt.roundMag (fmt.units mag * den) den = mag := by
  obtain ⟨raw, hr, -, hn⟩ := fmt.roundMag_nearest h (fmt.units mag * den) den hd
  have h1 := (hn mag).1
  have h0 : ((fmt.units mag * den : Nat) : Int) - den * fmt.units mag = 0 := by push_cast; ring
  rw [h0, abs_zero] at h1
  have h2 := abs_nonpos_iff.1 h1
  have h3 : fmt.units mag = fmt.units raw := by
    have hd' : (den : Int) ≠ 0 := by positivity
    have : (den : Int) * fmt.units mag = den * fmt.units raw := by push_cast at h2; linarith
    exact_mod_cast mul_left_cancel₀ hd' this
  rw [hr, ← fmt.units_inj.1 h3, min_eq_right hm]

/-- Twice the midpoint between the largest finite datum and the next power of two, in units. -/
def FloatFormat.overflowTwice (fmt : FloatFormat) : Nat :=
  fmt.units (fmt.infMag - 1) + fmt.units fmt.infMag

theorem FloatFormat.infMag_even (fmt : FloatFormat) (h : fmt.ok) :
    fmt.infMag % 2 = 0 ∧ 0 < fmt.infMag := by
  unfold FloatFormat.infMag
  obtain ⟨k, hk⟩ : ∃ k, fmt.prec - 1 = k + 1 := ⟨fmt.prec - 2, by have := h.1; omega⟩
  have : 2 ^ 1 < 2 ^ fmt.expBits := Nat.pow_lt_pow_right (by omega) (by have := h.2; omega)
  refine ⟨by rw [hk, Nat.pow_succ, ← Nat.mul_assoc]; omega, ?_⟩
  exact Nat.mul_pos (by omega) (by positivity)

/-- Rounding gives infinity exactly from the midpoint on. -/
theorem FloatFormat.roundMag_eq_infMag (fmt : FloatFormat) (h : fmt.ok) (num den : Nat)
    (hd : 0 < den) :
    fmt.roundMag num den = fmt.infMag ↔ den * fmt.overflowTwice ≤ 2 * num := by
  obtain ⟨raw, hr, -, hn⟩ := fmt.roundMag_nearest h num den hd
  obtain ⟨heven, hpos⟩ := fmt.infMag_even h
  have hiff : fmt.roundMag num den = fmt.infMag ↔ fmt.infMag ≤ raw := by
    rw [hr]; exact min_eq_left_iff
  rw [hiff]
  have hd' : (0 : Int) < den := by exact_mod_cast hd
  have hmono := fmt.units_strictMono
  have hcu : (fmt.units (fmt.infMag - 1) : Int) < fmt.units fmt.infMag := by
    exact_mod_cast hmono (by omega)
  have hgoal : den * fmt.overflowTwice ≤ 2 * num ↔
      (den : Int) * fmt.units (fmt.infMag - 1) + den * fmt.units fmt.infMag ≤ 2 * num := by
    unfold FloatFormat.overflowTwice
    zify
    rw [mul_add]
  rw [hgoal]
  have hcu' : (den : Int) * fmt.units (fmt.infMag - 1) < den * fmt.units fmt.infMag :=
    mul_lt_mul_of_pos_left hcu hd'
  constructor
  · intro hle
    have hu : (den : Int) * fmt.units fmt.infMag ≤ den * fmt.units raw :=
      mul_le_mul_of_nonneg_left (by exact_mod_cast hmono.monotone hle) hd'.le
    have h1 := (hn (fmt.infMag - 1)).1
    by_contra hc
    rw [abs_sub_comm, abs_of_nonneg (by linarith)] at h1
    rcases abs_cases ((num : Int) - den * fmt.units (fmt.infMag - 1)) with ⟨h2, -⟩ | ⟨h2, -⟩ <;>
      linarith
  · intro hle
    by_contra hc
    have hraw : raw ≤ fmt.infMag - 1 := by omega
    have hu : (den : Int) * fmt.units raw ≤ den * fmt.units (fmt.infMag - 1) :=
      mul_le_mul_of_nonneg_left (by exact_mod_cast hmono.monotone hraw) hd'.le
    obtain ⟨h1, h2⟩ := hn fmt.infMag
    rw [abs_of_nonneg (a := (num : Int) - den * fmt.units raw) (by linarith)] at h1 h2
    rcases abs_cases ((num : Int) - den * fmt.units fmt.infMag) with ⟨h3, h4⟩ | ⟨h3, h4⟩
    · rw [h3] at h1; linarith
    · rw [h3] at h1 h2
      have hcr : (den : Int) * fmt.units raw = den * fmt.units (fmt.infMag - 1) := by linarith
      have hrr : raw = fmt.infMag - 1 := by
        refine fmt.units_inj.1 ?_
        exact_mod_cast mul_left_cancel₀ hd'.ne' hcr
      have := h2 (by linarith)
      omega

end Sys2Proof.Machine
end

