-- ==== Sys2Proof/Laws/Float.lean ====
section
/-!
SUPPORT. Sign and magnitude of a floating-point datum: how they are put together and taken apart,
the value they stand for as an integer over a power of two, and nearness with the sign included.
-/

namespace Sys2Proof.Machine

theorem infMag_binary64 : binary64.infMag = 2047 * 2 ^ 52 := by decide +kernel

theorem infMag_binary32 : binary32.infMag = 255 * 2 ^ 23 := by decide +kernel

theorem isFinite_iff_mag (x : F64) : isFinite x = true ↔ f64Mag x < binary64.infMag := by
  simp [isFinite]

theorem isFinite_iff (x : F64) : isFinite x = true ↔ isNaN x = false ∧ isInf x = false := by
  simp [isFinite, isNaN, isInf]; omega

theorem f64Make_parts (neg : Bool) (m : Nat) (h : m < 2 ^ 63) :
    f64Mag (f64Make neg m) = m ∧ f64Neg (f64Make neg m) = neg := by
  have hn : (f64Make neg m).toNat = neg.toNat * 2 ^ 63 + m := by
    unfold f64Make
    change (BitVec.ofBool neg ++ BitVec.ofNat 63 m).toNat = _
    rw [toNat_append_eq]; simp; omega
  constructor
  · rw [f64Mag, hn]; omega
  · rw [f64Neg, BitVec.msb_eq_decide, hn]; cases neg <;> simp; omega

theorem f64Make_self (x : F64) : f64Make (f64Neg x) (f64Mag x) = x := by
  apply BitVec.eq_of_toNat_eq
  have hn : (f64Make (f64Neg x) (f64Mag x)).toNat = (f64Neg x).toNat * 2 ^ 63 + f64Mag x := by
    unfold f64Make
    change (BitVec.ofBool (f64Neg x) ++ BitVec.ofNat 63 (f64Mag x)).toNat = _
    rw [toNat_append_eq]; simp; unfold f64Mag; omega
  rw [hn, f64Neg, f64Mag, BitVec.msb_eq_decide]
  have := x.isLt
  by_cases h : 9223372036854775808 ≤ x.toNat
  · simp [h]; omega
  · simp [h]; omega

theorem f32Make_parts (neg : Bool) (m : Nat) (h : m < 2 ^ 31) :
    f32Mag (f32Make neg m) = m ∧ (f32Make neg m).msb = neg := by
  have hn : (f32Make neg m).toNat = neg.toNat * 2 ^ 31 + m := by
    unfold f32Make
    change (BitVec.ofBool neg ++ BitVec.ofNat 31 m).toNat = _
    rw [toNat_append_eq]; simp; omega
  constructor
  · rw [f32Mag, hn]; omega
  · rw [BitVec.msb_eq_decide, hn]; cases neg <;> simp; omega

/-- The sign as a factor. -/
def signFactor (neg : Bool) : Int := if neg then -1 else 1

theorem f64Value_eq (x : F64) :
    f64Value x = (signFactor (f64Neg x) * f64Units x : Int) / (2 : Rat) ^ binary64.unitExp := by
  unfold f64Value signFactor; split <;> simp

theorem f32Value_eq (y : F32) :
    f32Value y =
      (signFactor y.msb * binary32.units (f32Mag y) : Int) / (2 : Rat) ^ binary32.unitExp := by
  unfold f32Value signFactor; split <;> simp

theorem abs_f64Value (x : F64) :
    |f64Value x| = (f64Units x : Rat) / 2 ^ binary64.unitExp := by
  rw [f64Value_eq, abs_div, abs_of_pos (a := (2 : Rat) ^ _) (by positivity)]
  congr 1; rw [← Int.cast_abs, abs_mul]; cases f64Neg x <;> simp [signFactor]

theorem FloatFormat.roundMag_le (fmt : FloatFormat) (num den : Nat) :
    fmt.roundMag num den ≤ fmt.infMag := Nat.min_le_left _ _

/-- `roundMag_nearest` with a sign on both sides: among all data, of either sign, none is nearer,
and a tie that is not the same number goes to the even encoding. -/
theorem FloatFormat.roundMag_signed_nearest (fmt : FloatFormat) (h : fmt.ok) (num den : Nat)
    (hd : 0 < den) (hlt : fmt.roundMag num den < fmt.infMag) (b b' : Bool) (c : Nat) :
    |signFactor b * num - den * (signFactor b * fmt.units (fmt.roundMag num den))| ≤
      |signFactor b * num - den * (signFactor b' * fmt.units c)| ∧
    (|signFactor b * num - den * (signFactor b * fmt.units (fmt.roundMag num den))| =
        |signFactor b * num - den * (signFactor b' * fmt.units c)| →
      signFactor b' * fmt.units c = signFactor b * fmt.units (fmt.roundMag num den) ∨
        fmt.roundMag num den % 2 = 0) := by
  obtain ⟨raw, hr, -, hn⟩ := fmt.roundMag_nearest h num den hd
  have hraw : fmt.roundMag num den = raw := by omega
  rw [hraw]
  have hs : ∀ y : Int,
      |signFactor b * num - den * (signFactor b * y)| = |(num : Int) - den * y| := by
    intro y
    have e : signFactor b * (num : Int) - den * (signFactor b * y) =
      signFactor b * (num - den * y) := by ring
    rw [e, abs_mul]
    cases b <;> simp [signFactor]
  rw [hs]
  by_cases hb : b' = b
  · subst hb; rw [hs]
    exact ⟨(hn c).1, fun he => ((hn c).2 he).imp (fun h => by rw [h]) id⟩
  · have hopp : signFactor b' * (fmt.units c : Int) = signFactor b * (-(fmt.units c : Int)) := by
      cases b <;> cases b' <;> simp_all [signFactor]
    rw [hopp, hs]
    have h0 := hn 0
    have hu0 : fmt.units 0 = 0 := by
      have := fmt.units_shift 0 0 (by omega) (.inl rfl); simpa using this
    rw [hu0] at h0
    simp at h0
    have hd' : (0 : Int) < den := by exact_mod_cast hd
    have hc : (0 : Int) ≤ fmt.units c := by positivity
    have hge : |(num : Int)| ≤ |(num : Int) - den * -(fmt.units c : Int)| := by
      rw [abs_of_nonneg (by positivity), abs_of_nonneg (by nlinarith)]
      nlinarith
    have hnn : |(num : Int)| = num := abs_of_nonneg (by positivity)
    refine ⟨by linarith [h0.1], fun he => ?_⟩
    have e1 : |(num : Int) - den * fmt.units raw| = num := by
      have := h0.1; linarith
    have e2 : (num : Int) = |(num : Int) - den * -(fmt.units c : Int)| := by rw [← he, e1]
    have hc0 : (fmt.units c : Int) = 0 := by
      rw [abs_of_nonneg (by nlinarith)] at e2
      nlinarith
    rcases h0.2 e1 with h | h
    · left; rw [← h, hu0, hc0]; simp
    · right; exact h

end Sys2Proof.Machine
end

