-- ==== Sys2Proof/Laws/PerInstr.lean ====
section
/-!
SUPPORT. Statements about every instruction as it is written, one lemma per constructor of `Instr`.
-/

namespace Sys2Proof.Laws.RowRoundTrip

open Sys2Proof Sys2Proof.Machine

/-- A well-formed row, written out as the request it stands for, is classified to itself. -/
def Statement (i : Instr) : Prop := i.wf = true → requestInstr (instrRequest i) = i

theorem compose (node typeId : Int) : Statement (.compose node typeId) := fun _ => rfl
theorem decompose (identifier : Ident32) : Statement (.decompose identifier) := fun _ => rfl
theorem setCurrent (node : Int) (x : F64) : Statement (.setCurrent node x) := fun _ => rfl
theorem setRpm (node : Int) (x : F64) : Statement (.setRpm node x) := fun _ => rfl
theorem setPosition (node : Int) (x : F64) : Statement (.setPosition node x) := fun _ => rfl
theorem setKp (node : Int) (x : F64) : Statement (.setKp node x) := fun _ => rfl
theorem setKi (node : Int) (x : F64) : Statement (.setKi node x) := fun _ => rfl
theorem setKd (node : Int) (x : F64) : Statement (.setKd node x) := fun _ => rfl
theorem setPositionFloat (node : Int) (p : F64) (v : Option F64) :
    Statement (.setPositionFloat node p v) := fun _ => rfl
theorem setVelocity (node : Int) (x : F64) : Statement (.setVelocity node x) := fun _ => rfl
theorem setAcceleration (node : Int) (x : F64) : Statement (.setAcceleration node x) := fun _ => rfl
theorem setDeceleration (node : Int) (x : F64) : Statement (.setDeceleration node x) := fun _ => rfl
theorem setStoredPosition (node : Int) (p : F64) (b : Bool) :
    Statement (.setStoredPosition node p b) := fun _ => rfl

/-- A DECODE request built from a row's fields is classified by the row's type id. -/
theorem decodeInstr_ident32 (hi : BitVec 16) (t n : Byte) (p : List Byte) :
    decodeInstr (ident32 hi t n) p =
      match statusKindOf t with
      | some .status => .status hi n p
      | some .status2 => .status2 hi n p
      | some .status3 => .status3 hi n p
      | some .status4 => .status4 hi n p
      | some .status5 => .status5 hi n p
      | some .status6 => .status6 hi n p
      | none => .noRecord hi t n p := by
  obtain ⟨h1, h2, h3⟩ := fields_ident32 hi t n
  cases hk : statusKindOf t with
  | none => simp [decodeInstr, h1, h2, h3, hk]
  | some k => cases k <;> simp [decodeInstr, h1, h2, h3, hk]

theorem status (hi : BitVec 16) (n : Byte) (p : List Byte) : Statement (.status hi n p) :=
  fun _ => decodeInstr_ident32 hi 9 n p
theorem status2 (hi : BitVec 16) (n : Byte) (p : List Byte) : Statement (.status2 hi n p) :=
  fun _ => decodeInstr_ident32 hi 14 n p
theorem status3 (hi : BitVec 16) (n : Byte) (p : List Byte) : Statement (.status3 hi n p) :=
  fun _ => decodeInstr_ident32 hi 15 n p
theorem status4 (hi : BitVec 16) (n : Byte) (p : List Byte) : Statement (.status4 hi n p) :=
  fun _ => decodeInstr_ident32 hi 16 n p
theorem status5 (hi : BitVec 16) (n : Byte) (p : List Byte) : Statement (.status5 hi n p) :=
  fun _ => decodeInstr_ident32 hi 27 n p
theorem status6 (hi : BitVec 16) (n : Byte) (p : List Byte) : Statement (.status6 hi n p) :=
  fun _ => decodeInstr_ident32 hi 28 n p
theorem noRecord (hi : BitVec 16) (t n : Byte) (p : List Byte) :
    Statement (.noRecord hi t n p) := by
  intro h
  have h' : statusKindOf t = none := by simpa [Instr.wf] using h
  rw [instrRequest, requestInstr, decodeInstr_ident32, h']

end Sys2Proof.Laws.RowRoundTrip
end

