-- ==== Sys2Proof/Laws/Requests.lean ====
section
/-!
SUPPORT. Once for the shared computations of ENCODE and DECODE: everything `encodeFrame`,
`decodeRecord`, `memRead` and `scale` can give.
-/

namespace Sys2Proof.Machine

/-- ENCODE gives the node's RangeError, or else the body's error, or else the frame. -/
theorem encodeFrame_cases (node : Int) (k : CommandKind) (body : Result Memory) :
    (¬ (0 ≤ node ∧ node ≤ 255) ∧ encodeFrame node k body = raiseRange .node node) ∨
    (0 ≤ node ∧ node ≤ 255 ∧ ∃ e, body = .error e ∧ encodeFrame node k body = .error e) ∨
    (0 ≤ node ∧ node ≤ 255 ∧ ∃ m, body = .ok m ∧ encodeFrame node k body =
      .ok (.frame (ident29 (commandTypeId k) (twos 8 node)) extendedFormat (payloadBytes m))) := by
  have ht : twos 8 ((commandTypeId k).toNat : Int) = commandTypeId k := by
    rw [twos_eq_ofInt]; simp
  rcases composeIdent_cases node (commandTypeId k).toNat with ⟨h, hc⟩ | ⟨-, h, -⟩ | ⟨h, -, hc⟩
  · left; exact ⟨h, by rw [encodeFrame, hc]; rfl⟩
  · exact absurd (commandTypeId_range k) h
  · right
    rw [ht] at hc
    cases body with
    | error e => left; exact ⟨h.1, h.2, e, rfl, by rw [encodeFrame, hc]⟩
    | ok m => right; exact ⟨h.1, h.2, m, rfl, by rw [encodeFrame, hc]⟩

/-- DECODE of a status type id gives its FormatError or its record. -/
theorem decodeRecord_cases (k : StatusKind) (p : List Byte) (layout : TelemetryRecord) :
    (p.length < reqLen k ∧
      decodeRecord k p layout = raiseFormat (statusTypeId k) p.length (reqLen k)) ∨
    (reqLen k ≤ p.length ∧ decodeRecord k p layout = .ok (.record layout)) := by
  unfold decodeRecord; split
  · left; exact ⟨by assumption, rfl⟩
  · right; exact ⟨by omega, rfl⟩

/-- Bytes after the ones read do not matter. -/
theorem beVal_append (p q : List Byte) (off n : Nat) (h : off + n ≤ p.length) :
    beVal (p ++ q) off n = beVal p off n := by
  induction n with
  | zero => rfl
  | succ n ih =>
    simp only [beVal]
    rw [ih (by omega), List.getD_append _ _ _ _ (by omega)]

theorem scale_append (p q : List Byte) (off W d : Nat) (h : off + W / 8 ≤ p.length) :
    scale (p ++ q) off W d = scale p off W d := by
  simp only [scale, fieldInt, memRead, beVal_append p q off _ h]

/-- A 32-bit field is its four bytes put together, the first most significant. -/
theorem fieldInt_32 (b0 b1 b2 b3 : Byte) (p : List Byte) (off : Nat)
    (h0 : p[off]?.getD 0 = b0) (h1 : p[off + 1]?.getD 0 = b1) (h2 : p[off + 2]?.getD 0 = b2)
    (h3 : p[off + 3]?.getD 0 = b3) : fieldInt p off 32 = (b0 ++ b1 ++ b2 ++ b3).toInt := by
  unfold fieldInt
  rw [sint_eq_toInt]
  have hv : memRead p off (32 / 8) = (b0 ++ b1 ++ b2 ++ b3) := by
    apply BitVec.eq_of_toNat_eq
    have e : (b0 ++ b1 ++ b2 ++ b3).toNat =
        ((b0.toNat * 256 + b1.toNat) * 256 + b2.toNat) * 256 + b3.toNat := by
      rw [toNat_append_eq, toNat_append_eq, toNat_append_eq]; norm_num
    rw [e]
    have x0 := b0.isLt; have x1 := b1.isLt; have x2 := b2.isLt; have x3 := b3.isLt
    simp only [memRead, BitVec.toNat_ofNat, beVal, Nat.reduceDiv, List.getD_eq_getElem?_getD,
      Nat.add_zero]
    rw [h0, h1, h2, h3]
    norm_num
    omega
  rw [hv]

/-- A 16-bit field is its two bytes put together, the first most significant. -/
theorem fieldInt_16 (b0 b1 : Byte) (p : List Byte) (off : Nat)
    (h0 : p[off]?.getD 0 = b0) (h1 : p[off + 1]?.getD 0 = b1) :
    fieldInt p off 16 = (b0 ++ b1).toInt := by
  unfold fieldInt
  rw [sint_eq_toInt]
  have hv : memRead p off (16 / 8) = (b0 ++ b1) := by
    apply BitVec.eq_of_toNat_eq
    have e : (b0 ++ b1).toNat = b0.toNat * 256 + b1.toNat := by
      rw [toNat_append_eq]; norm_num
    rw [e]
    have x0 := b0.isLt; have x1 := b1.isLt
    simp only [memRead, BitVec.toNat_ofNat, beVal, Nat.reduceDiv, List.getD_eq_getElem?_getD,
      Nat.add_zero]
    rw [h0, h1]
    norm_num
    omega
  rw [hv]

end Sys2Proof.Machine
end

