-- ==== Sys2Proof/Laws/State.lean ====
section
/-!
SUPPORT. One lemma per field per update of the state.
-/

namespace Sys2Proof.Machine

@[simp] theorem deliver_inflight (r : Response) (s : State) : (deliver r s).inflight = none := rfl
@[simp] theorem deliver_inputs (r : Response) (s : State) : (deliver r s).inputs = s.inputs := rfl
@[simp] theorem deliver_responses (r : Response) (s : State) :
    (deliver r s).responses = s.responses ++ [r] := rfl

@[simp] theorem accept_inflight (r : Request) (s : State) : (accept r s).inflight = some r := rfl
@[simp] theorem accept_inputs (r : Request) (s : State) : (accept r s).inputs = s.inputs := rfl
@[simp] theorem accept_responses (r : Request) (s : State) :
    (accept r s).responses = s.responses := rfl

@[simp] theorem takeReset_inflight (s : State) : (takeReset s).inflight = none := rfl
@[simp] theorem takeReset_inputs (s : State) : (takeReset s).inputs = s.inputs := rfl
@[simp] theorem takeReset_responses (s : State) : (takeReset s).responses = s.responses := rfl

@[simp] theorem reset_inflight : State.reset.inflight = none := rfl
@[simp] theorem reset_inputs : State.reset.inputs = [] := rfl
@[simp] theorem reset_responses : State.reset.responses = [] := rfl

@[simp] theorem holdReset_inflight (s : State) : (holdReset s).inflight = s.inflight := by
  unfold holdReset; split <;> rfl
@[simp] theorem holdReset_responses (s : State) : (holdReset s).responses = s.responses := by
  unfold holdReset; split <;> rfl

/-- Held back, no reset is asserted. -/
@[simp] theorem resetAsserted_holdReset (s : State) : resetAsserted (holdReset s) = false := by
  unfold holdReset
  split
  · rfl
  · rename_i h; simpa using h

/-- `resetAsserted` looks at the first event only. -/
theorem resetAsserted_eq (s : State) :
    resetAsserted s = true ↔ ∃ rest, s.inputs = .reset :: rest := by
  unfold resetAsserted
  rcases s.inputs with _ | ⟨_ | _ | _ | _, rest⟩ <;> simp

@[simp] theorem resetAsserted_accept (r : Request) (s : State) :
    resetAsserted (accept r s) = resetAsserted s := rfl

end Sys2Proof.Machine
end

