-- ==== Sys2Proof/Laws/Step.lean ====
section
/-!
SUPPORT. What the dispatch and a step can do, said once.
-/

namespace Sys2Proof.Machine

@[simp] theorem answer_eq (c : Result Response) (s : State) :
    answer c s = .next (deliver (resultResponse c) s) := rfl

/-- Every instruction answers: it delivers one response, which does not depend on the state. -/
theorem exec_delivers (i : Instr) : ∃ r : Response, ∀ s, exec i s = .next (deliver r s) := by
  cases i <;> exact ⟨_, fun _ => rfl⟩

/-- The cases of a step: a reset, the answer to the request in flight, or an event at the port of
an idle block. -/
theorem step_cases (s : State) :
    (∃ rest, s.inputs = .reset :: rest ∧ step s = .next (takeReset { s with inputs := rest })) ∨
    (resetAsserted s = false ∧ ∃ r, s.inflight = some r ∧ step s = exec (requestInstr r) s) ∨
    (resetAsserted s = false ∧ s.inflight = none ∧ step s = .next (takeNextInput s)) := by
  unfold step
  by_cases h : resetAsserted s = true
  · obtain ⟨rest, hr⟩ := (resetAsserted_eq s).1 h
    exact .inl ⟨rest, hr, by simp [h, takeNextInput, hr, takeInput]⟩
  · simp only [Bool.not_eq_true] at h
    cases hf : s.inflight with
    | some r => exact .inr (.inl ⟨h, r, rfl, by simp [h]⟩)
    | none => exact .inr (.inr ⟨h, rfl, by simp [h]⟩)

/-- What one event does at the port. -/
theorem takeInput_cases (e : Input) (s : State) :
    (∃ r, takeInput e s = accept r s) ∨
    (∃ (w : Nat) (p : PhysRequest w) (k : BitVec 8), e = .physical w p ∧
      physRequest p = .error (.illegalKind k) ∧ takeInput e s = deliver (illegalResponse k) s) ∨
    (e = .reset ∧ takeInput e s = takeReset s) ∨ (e = .quiet ∧ takeInput e s = s) := by
  cases e with
  | request r => exact .inl ⟨r, rfl⟩
  | physical w p =>
    cases h : physRequest p with
    | ok r => exact .inl ⟨r, by simp [takeInput, h]⟩
    | error err =>
      obtain ⟨k⟩ := err
      exact .inr (.inl ⟨w, p, k, rfl, h, by simp [takeInput, h]⟩)
  | reset => exact .inr (.inr (.inl ⟨rfl, rfl⟩))
  | quiet => exact .inr (.inr (.inr ⟨rfl, rfl⟩))

/-- Everything the physical request decoder can do: reject an ENCODE whose kind the Command table does
not hold, naming the kind, or accept by the `op`. -/
theorem physRequest_cases {w : Nat} (p : PhysRequest w) :
    (p.op = 0#2 ∧ physRequest p = .ok (.compose (sint p.node) (sint p.typeId))) ∨
    (p.op = 1#2 ∧ physRequest p = .ok (.decompose p.identifier)) ∨
    (p.op = 2#2 ∧ ∃ k, commandKindOf p.kind = some k ∧
      physRequest p = .ok (.encode (sint p.node) (physCommand p k))) ∨
    (p.op = 2#2 ∧ commandKindOf p.kind = none ∧
      physRequest p = .error (.illegalKind p.kind)) ∨
    (p.op = 3#2 ∧ physRequest p = .ok (.decode p.identifier p.payload)) := by
  have h : ∀ o : BitVec 2, o = 0#2 ∨ o = 1#2 ∨ o = 2#2 ∨ o = 3#2 := by decide
  rcases h p.op with h | h | h | h
  · simp [physRequest, h]
  · simp [physRequest, h]
  · cases hk : commandKindOf p.kind <;> simp [physRequest, h, hk]
  · simp [physRequest, h]

/-- A table word placed for fetching is run by the very next step. -/
theorem step_withFetchWord (s : State) (nbits w : Nat) (r : Request)
    (h : physRequest (tableRequest nbits w) = .ok r) :
    step (s.withFetchWord nbits w) = exec (requestInstr r) (s.withFetchWord nbits w) := by
  simp [step, State.withFetchWord, loadPhysical, h]

end Sys2Proof.Machine
end

