-- ==== Sys2Proof/Tests/Slice0.lean ====
section
/-!
SUPPORT. Tests of the model and witnesses for the statements. Every expected response comes from
`95_test_vectors.md` (the row or the program step is named), every physical request is written out
field by field from R74, and nothing here was read off the model.
-/

namespace Sys2Proof.Tests

open Sys2Proof Sys2Proof.Machine Sys2Proof.Certificates

/- One theorem at a time: kernel evaluations waiting for one another would each hold a thread. -/
set_option Elab.async false

/-! ### Helpers -/

/-- The response of one step with the request in the slot, if it delivers exactly one and empties
the slot. -/
def answerTo (r : Request) : Option Response :=
  match step { State.reset with inflight := some r } with
  | .next ⟨none, [], [a]⟩ => some a
  | _ => none

/-- The response to a request in the written form of R78. -/
def ask (text : String) : Option Response := (textRequest text).bind answerTo

/-- The answer is a frame with this identifier and payload, extended. -/
def framed (identifier : Nat) (payload : List Byte) : Option Response :=
  some (.frame (BitVec.ofNat 29 identifier) true payload)

/-- The physical fields of a COMPOSE as P3 writes them, `REQ_INT_WIDTH` 9. -/
def physCompose (node typeId : BitVec 9) : PhysRequest 9 :=
  ⟨0, node, typeId, 0, 0, 0, 0, 0, 0, []⟩

/-- The physical fields of an ENCODE as P1 and P4 write them. -/
def physEncode (node : BitVec 9) (kind : BitVec 8) (p0 : F64) : PhysRequest 9 :=
  ⟨2, node, 0, 0, kind, p0, 0, 0, 0, []⟩

/-- The physical fields of a DECODE as P2 writes them. -/
def physDecode (identifier : Ident32) (payload : List Byte) : PhysRequest 9 :=
  ⟨3, 0, 0, identifier, 0, 0, 0, 0, 0, payload⟩

/-- The next state of an outcome, if there is one. -/
def nextOf (o : Host.Outcome State Fault Refusal) : Option State :=
  match o with
  | .next s => some s
  | _ => none

theorem eq_next_of_nextOf {o : Host.Outcome State Fault Refusal} {t : State}
    (h : nextOf o = some t) : o = .next t := by
  cases o <;> simp_all [nextOf]

/-- The premises of a scaled command's frame clause on its parameter. -/
abbrev framesInt (x : F64) (F : Nat) : Prop :=
  isFinite x ∧ isFinite (mul64 x F) ∧ isInt32 (trunc (mul64 x F))

/-- The last case of its error clause: the product is finite and no int32. -/
abbrev leavesInt32 (x : F64) (F : Nat) : Prop :=
  isFinite x ∧ isFinite (mul64 x F) ∧ ¬ isInt32 (trunc (mul64 x F))

/-- The premises of RpmIsTruncatedTowardZero on an integer and a parameter. -/
abbrev integerPart (n : Int) (x : F64) : Prop :=
  isInt32 n ∧ isFinite x ∧ |(n : Rat)| ≤ |f64Value x| ∧ |f64Value x| < |(n : Rat)| + 1 ∧
    0 ≤ (n : Rat) * f64Value x

/-- A legal port at the least widths R7 allows. -/
def leastPort : PortParams := ⟨9, 8⟩

/-! ### WellFormed refuses what is ill formed -/

theorem test_wf_refuses_status_id_as_no_record :
    (Instr.noRecord 0 9 31 []).wf = false ∧ (Instr.noRecord 0 2 31 []).wf = true := by decide

theorem test_width_refuses_node_out_of_field :
    ¬ (Instr.setKp 256 0).fitsWidth 9 ∧ ¬ (Instr.compose 0 (-257)).fitsWidth 9 ∧
    (Instr.compose 255 (-256)).fitsWidth 9 := by decide

theorem test_port_refuses_narrow_widths :
    ¬ (⟨8, 8⟩ : PortParams).legal ∧ ¬ (⟨9, 7⟩ : PortParams).legal ∧ leastPort.legal := by decide

theorem test_port_refuses_long_payload :
    ¬ (Instr.status 0 31 [0, 0, 0, 0, 0, 0, 0, 0, 0]).fitsPort leastPort ∧
    (Instr.status 0 31 [0, 0, 0, 0, 0, 0, 0, 0]).fitsPort leastPort := by decide

/-! ### Decoding: physical fields written out from R74, words from R60 and R62 to R64 -/

theorem test_decode_compose : decode (physCompose 67 68) = .ok (.compose 67 68) := by decide

theorem test_decode_compose_negative :
    decode (physCompose 0 0x1FF) = .ok (.compose 0 (-1)) := by decide

theorem test_decode_decompose :
    decode (⟨1, 0, 0, 0x4443, 0, 0, 0, 0, 0, []⟩ : PhysRequest 9) = .ok (.decompose 0x4443) := by
  decide

theorem test_decode_setCurrent :
    decode (physEncode 31 0x01 0x4004000000000000) =
      .ok (.setCurrent 31 0x4004000000000000) := by decide

theorem test_decode_setRpm :
    decode (physEncode 31 0x03 0xC097700000000000) = .ok (.setRpm 31 0xC097700000000000) := by
  decide

theorem test_decode_setPosition :
    decode (physEncode 2 0x04 0x3FF8000000000000) = .ok (.setPosition 2 0x3FF8000000000000) := by
  decide

theorem test_decode_setKp :
    decode (physEncode 31 0x40 0x3FB999999999999A) = .ok (.setKp 31 0x3FB999999999999A) := by
  decide

theorem test_decode_setKi :
    decode (physEncode 3 0x41 0x8000000000000000) = .ok (.setKi 3 0x8000000000000000) := by decide

theorem test_decode_setKd :
    decode (physEncode 1 0x42 0x48078287F49C4A1D) = .ok (.setKd 1 0x48078287F49C4A1D) := by decide

theorem test_decode_setPositionFloat :
    decode (⟨2, 31, 0, 0, 0x44, 0x4014000000000000, 0x4000000000000000, 1, 0, []⟩ : PhysRequest 9) =
      .ok (.setPositionFloat 31 0x4014000000000000 (some 0x4000000000000000)) := by decide

theorem test_decode_setPositionFloat_no_velocity :
    decode (⟨2, 31, 0, 0, 0x44, 0x4014000000000000, 0x4000000000000000, 0, 1, []⟩ : PhysRequest 9) =
      .ok (.setPositionFloat 31 0x4014000000000000 none) := by decide

theorem test_decode_setVelocity :
    decode (physEncode 4 0x45 0x4059000000000000) = .ok (.setVelocity 4 0x4059000000000000) := by
  decide

theorem test_decode_setAcceleration :
    decode (physEncode 4 0x46 0x3FD0000000000000) =
      .ok (.setAcceleration 4 0x3FD0000000000000) := by decide

theorem test_decode_setDeceleration :
    decode (physEncode 4 0x47 0xC004000000000000) =
      .ok (.setDeceleration 4 0xC004000000000000) := by decide

theorem test_decode_setStoredPosition :
    decode (⟨2, 31, 0, 0, 0x48, 0xBFF0000000000000, 0, 0, 1, []⟩ : PhysRequest 9) =
      .ok (.setStoredPosition 31 0xBFF0000000000000 true) := by decide

theorem test_decode_status :
    decode (physDecode 0x0000091F [0, 1]) = .ok (.status 0 31 [0, 1]) := by decide

theorem test_decode_status2 : decode (physDecode 0x00000E0A []) = .ok (.status2 0 10 []) := by decide

theorem test_decode_status3 : decode (physDecode 0x00000F0A []) = .ok (.status3 0 10 []) := by decide

theorem test_decode_status4 :
    decode (physDecode 0x1FFF101F [7]) = .ok (.status4 0x1FFF 31 [7]) := by decide

theorem test_decode_status5 : decode (physDecode 0x00001B1F []) = .ok (.status5 0 31 []) := by decide

theorem test_decode_status6 : decode (physDecode 0x00001C0A []) = .ok (.status6 0 10 []) := by decide

theorem test_decode_noRecord :
    decode (physDecode 0x0000011F []) = .ok (.noRecord 0 1 31 []) := by decide

/-- R204: kinds 67, 9 and 0 are rejected (the note after section 2.2). -/
theorem test_decode_illegal_kinds :
    decode (physEncode 1 67 0) = .error (.illegalKind 67) ∧
    decode (physEncode 1 9 0) = .error (.illegalKind 9) ∧
    decode (physEncode 1 0 0) = .error (.illegalKind 0) := by decide

/-- The match word of each command row of the opcode table, with node 0x1F in bits 7:0. -/
theorem test_table_words_of_commands :
    decodeTableWord 32 0x31F = some (.setRpm 31 0) ∧
    decodeTableWord 32 0x41F = some (.setPosition 31 0) ∧
    decodeTableWord 32 0x401F = some (.setKp 31 0) ∧
    decodeTableWord 32 0x411F = some (.setKi 31 0) ∧
    decodeTableWord 32 0x421F = some (.setKd 31 0) ∧
    decodeTableWord 32 0x451F = some (.setVelocity 31 0) ∧
    decodeTableWord 32 0x461F = some (.setAcceleration 31 0) ∧
    decodeTableWord 32 0x471F = some (.setDeceleration 31 0) ∧
    decodeTableWord 32 0x481F = some (.setStoredPosition 31 0 false) := by decide

/-- The match word of each status row, with node 0x0A, and of the row that fixes no bit. -/
theorem test_table_words_of_statuses :
    decodeTableWord 16 0xE0A = some (.status2 0 10 []) ∧
    decodeTableWord 16 0xF0A = some (.status3 0 10 []) ∧
    decodeTableWord 16 0x100A = some (.status4 0 10 []) ∧
    decodeTableWord 16 0x1C0A = some (.status6 0 10 []) ∧
    decodeTableWord 0 0 = some (.noRecord 0 0 0 []) := by decide

/-! ### COMPOSE and DECOMPOSE (section 2.1) -/

theorem test_compose_gives_identifier :
    ask "Compose(node=67, type_id=68)" = some (.ident 0x0004443) ∧
    ask "Compose(node=255, type_id=255)" = some (.ident 0x000FFFF) := by decide +kernel

theorem test_compose_checks_node_first :
    answerTo (.compose 300 (-5)) = some (.error .rangeError (.rangeInfo .node 300)) ∧
    answerTo (.compose 0 256) =
      some (.error .rangeError (.rangeInfo .typeId 256)) := by decide +kernel

theorem test_decompose_ignores_high_bits :
    ask "Decompose(identifier=0x1FFF091F)" = some (.fields 31 9) ∧
    ask "Decompose(identifier=0xFFFFFFFF)" = some (.fields 255 255) := by decide +kernel

/-! ### The commands (section 2.2) -/

theorem test_setCurrent_rounds_then_truncates :
    ask "SetCurrent(node=31, current=0.29)" = framed 0x11F [0x00, 0x00, 0x01, 0x22] ∧
    ask "SetCurrent(node=31, current=-0.0015)" = framed 0x11F [0xFF, 0xFF, 0xFF, 0xFF] := by
  decide +kernel

theorem test_setCurrent_range_edges :
    answerTo (.encode 31 (.setCurrent 0x4140624DD2D0E560)) = framed 0x11F [0x7F, 0xFF, 0xFF, 0xFF] ∧
    answerTo (.encode 31 (.setCurrent 0x4140624DD2F1A9FC)) = some (valueError .current) ∧
    answerTo (.encode 256 (.setCurrent 0x7FF8000000000000)) =
      some (nodeError 256) := by decide +kernel

theorem test_setRpm_truncates_before_check :
    answerTo (.encode 1 (.setRpm 0xC1E0000000100000)) = framed 0x301 [0x80, 0x00, 0x00, 0x00] ∧
    answerTo (.encode 1 (.setRpm 0xBFFE666666666666)) =
      framed 0x301 [0xFF, 0xFF, 0xFF, 0xFF] := by decide +kernel

theorem test_setRpm_range_edges :
    answerTo (.encode 1 (.setRpm 0x41E0000000000000)) = some (valueError .rpm) ∧
    answerTo (.encode 1 (.setRpm 0xC1E0000000200000)) = some (valueError .rpm) := by decide +kernel

theorem test_setPosition_scales :
    answerTo (.encode 2 (.setPosition 0xBFD0000000000000)) = framed 0x402 [0xFF, 0xFC, 0x2F, 0x70] ∧
    answerTo (.encode 2 (.setPosition 0x40A0C80000000000)) =
      some (valueError .pos) := by decide +kernel

theorem test_setKp_rounds :
    answerTo (.encode 3 (.setKp 0x3FB999999999999A)) = framed 0x4003 [0x3D, 0xCC, 0xCC, 0xCD] ∧
    answerTo (.encode 3 (.setKp 0x3696D601AD376AB9)) =
      framed 0x4003 [0x00, 0x00, 0x00, 0x01] := by decide +kernel

theorem test_setKp_special_values :
    ask "SetKp(node=3, kp=nan)" = framed 0x4003 [0x7F, 0xC0, 0x00, 0x00] ∧
    ask "SetKp(node=3, kp=1e39)" = some (valueError .kp) := by decide +kernel

theorem test_setKi_overflow_threshold :
    answerTo (.encode 3 (.setKi 0x47EFFFFFE0000000)) = framed 0x4103 [0x7F, 0x7F, 0xFF, 0xFF] ∧
    answerTo (.encode 3 (.setKi 0x47EFFFFFF0000000)) = some (valueError .ki) := by decide +kernel

theorem test_setKi_keeps_zero_sign :
    answerTo (.encode 3 (.setKi 0x8000000000000000)) =
      framed 0x4103 [0x80, 0x00, 0x00, 0x00] := by decide +kernel

theorem test_setKd_special_values :
    answerTo (.encode 3 (.setKd 0x48078287F49C4A1D)) = some (valueError .kd) ∧
    answerTo (.encode 3 (.setKd 0x7FF8000000000000)) =
      framed 0x4203 [0x7F, 0xC0, 0x00, 0x00] := by decide +kernel

theorem test_setPositionFloat_velocity :
    ask "SetPositionFloat(node=67, pos=5.0, vel=2.0)" =
      framed 0x4443 [0x40, 0xA0, 0x00, 0x00, 0x40, 0x00, 0x00, 0x00] ∧
    ask "SetPositionFloat(node=67, pos=5.0, vel=-0.0)" =
      framed 0x4443 [0x40, 0xA0, 0x00, 0x00] ∧
    ask "SetPositionFloat(node=67, pos=5.0, vel=1e-50)" =
      framed 0x4443 [0x40, 0xA0, 0x00, 0x00, 0x00, 0x00, 0x00, 0x00] := by decide +kernel

theorem test_setPositionFloat_position_first :
    answerTo (.encode 67 (.setPositionFloat 0x48078287F49C4A1D (some 0x48078287F49C4A1D))) =
      some (valueError .pos) ∧
    answerTo (.encode 67 (.setPositionFloat 0x4014000000000000 (some 0x48078287F49C4A1D))) =
      some (valueError .vel) := by
  decide +kernel

theorem test_setVelocity :
    answerTo (.encode 4 (.setVelocity 0x4059000000000000)) =
      framed 0x4504 [0x42, 0xC8, 0x00, 0x00] ∧
    answerTo (.encode 4 (.setVelocity 0x7FF0000000000000)) =
      framed 0x4504 [0x7F, 0x80, 0x00, 0x00] := by
  decide +kernel

theorem test_setAcceleration :
    answerTo (.encode 4 (.setAcceleration 0x3FD0000000000000)) =
      framed 0x4604 [0x3E, 0x80, 0x00, 0x00] ∧
    answerTo (.encode 4 (.setAcceleration 0xFFF0000000000000)) =
      framed 0x4604 [0xFF, 0x80, 0x00, 0x00] := by
  decide +kernel

theorem test_setDeceleration :
    answerTo (.encode 4 (.setDeceleration 0xC004000000000000)) =
      framed 0x4704 [0xC0, 0x20, 0x00, 0x00] := by
  decide +kernel

theorem test_setStoredPosition :
    ask "SetStoredPosition(node=5, pos=10.0, store=1)" =
      framed 0x4805 [0x41, 0x20, 0x00, 0x00, 0x01] ∧
    ask "SetStoredPosition(node=5, pos=-1.0, store=0)" =
      framed 0x4805 [0xBF, 0x80, 0x00, 0x00, 0x00] := by decide +kernel

/-! ### The status frames (section 2.3) -/

theorem test_status_negative_fields :
    answerTo (.decode 0x905 [0xFF, 0xFF, 0xC5, 0x68, 0xFF, 0x9C, 0xFC, 0x18]) =
      some (.record (.status 5 ⟨-15000, 1, -15000⟩ ⟨-100, 10, -10⟩ ⟨-1000, 1000, -1⟩)) := by
  decide +kernel

theorem test_status_short :
    answerTo (.decode 0x91F [0x00, 0x00, 0x3A, 0x98, 0x00, 0x64, 0x03]) =
      some (.error .formatError (.formatInfo 9 7 8)) := by decide +kernel

theorem test_status2 :
    answerTo (.decode 0xE0A [0x00, 0x01, 0x86, 0xA0, 0xFF, 0xFF, 0xD8, 0xF0]) =
      some (.record (.status2 10 ⟨100000, 10000, 10⟩ ⟨-10000, 10000, -1⟩)) := by decide +kernel

theorem test_status3 :
    answerTo (.decode 0xF0A [0x00, 0x98, 0x96, 0x80, 0x00, 0x00, 0x00, 0x01]) =
      some (.record (.status3 10 ⟨10000000, 10000, 1000⟩ ⟨1, 10000, 1 / 10000⟩)) := by
  decide +kernel

theorem test_status4 :
    answerTo (.decode 0x1FFF100A [0x01, 0x2C, 0xFF, 0x9C, 0x00, 0x64, 0xFF, 0x38]) =
      some (.record (.status4 10 ⟨300, 10, 30⟩ ⟨-100, 10, -10⟩ ⟨100, 10, 10⟩ ⟨-200, 50, -4⟩)) := by
  decide +kernel

theorem test_status5_ignores_trailing_bytes :
    answerTo (.decode 0x1B0A [0xFF, 0xFF, 0xFF, 0xFA, 0x01, 0xF4, 0xDE, 0xAD]) =
      some (.record (.status5 10 ⟨-6, 6, -1⟩ ⟨500, 10, 50⟩)) := by decide +kernel

theorem test_status5_short :
    ask "Decode(identifier=0x1B0A, payload=[00 00 00 07 01])" =
      some (.error .formatError (.formatInfo 27 5 6)) := by decide +kernel

theorem test_status6 :
    answerTo (.decode 0x1C0A [0x7F, 0xFF, 0x80, 0x00, 0xFF, 0xFF, 0x00, 0x01]) =
      some (.record (.status6 10 ⟨32767, 1000, 32767 / 1000⟩ ⟨-32768, 1000, -32768 / 1000⟩
        ⟨-1, 1000, -1 / 1000⟩ ⟨1, 1000, 1 / 1000⟩)) := by decide +kernel

theorem test_noRecord :
    answerTo (.decode 0x4443 [0x40, 0xA0, 0x00, 0x00]) = some (.noRecord 67 68) ∧
    answerTo (.decode 0xFFFFFFFF []) = some (.noRecord 255 255) := by decide +kernel

/-- The f64view of 7/6 is the binary64 datum 1.1666666666666667 (section 2.3). -/
theorem test_f64view : f64view ⟨7, 6, 7 / 6⟩ = 0x3FF2AAAAAAAAAAAB#64 := by decide +kernel

/-! ### Text that is no call of the grammar -/

theorem test_text_refused :
    textRequest "SetCurrent(node=31)" = none ∧ textRequest "SetKp(kp=1.0, node=3)" = none ∧
    textRequest "Compose(node=1.5, type_id=0)" = none ∧ textRequest "Reset()" = none := by
  decide +kernel

/-- R78: an `INT` is a decimal integer and `store` is `0` or `1`, so neither has a fraction, an
exponent or a second digit. -/
theorem test_int_and_store_forms :
    intOf "1.5e1".toList = none ∧ intOf "15e0".toList = none ∧ intOf "-15".toList = some (-15) ∧
    flagOf "00".toList = none ∧ flagOf "1e0".toList = none ∧ flagOf "1".toList = some true := by
  decide +kernel

/-! ### Port and reset (section 2.4, R29, R204, R240) -/

/-- Reset while a request is in flight: the slot is empty and nothing is delivered. -/
theorem test_reset_discards :
    nextOf (step ⟨some (.decompose 0x11F), [.reset, .request (.decompose 1)], []⟩) =
      some ⟨none, [.request (.decompose 1)], []⟩ := by decide

theorem test_accept_then_answer :
    nextOf (step ⟨none, [.request (.decompose 0x11F)], []⟩) =
      some ⟨some (.decompose 0x11F), [], []⟩ ∧
    nextOf (step ⟨some (.decompose 0x11F), [], []⟩) = some ⟨none, [], [.fields 31 1]⟩ := by decide

theorem test_illegal_kind_answered :
    nextOf (step ⟨none, [.physical 9 (physEncode 1 67 0)], []⟩) =
      some ⟨none, [], [.error .illegalRequest (.illegalInfo 67)]⟩ := by decide

theorem test_withFetchWord_runs_word :
    nextOf (step (State.reset.withFetchWord 8 1)) = some ⟨none, [], [.fields 0 0]⟩ ∧
    nextOf (step (State.reset.withFetchWord 32 0x21F)) = some ⟨none, [], [.noRecord 31 2]⟩ := by
  decide

/-- The bus log holds the frames only. -/
theorem test_busLog :
    busLog ⟨none, [], [.fields 1 2, .frame 0x100 true [0, 0, 3, 0xE8],
      .error .rangeError (.rangeInfo .typeId (-1))]⟩ = [(0x100, [0, 0, 3, 0xE8])] := by decide

/-- Channel 1 moves, channel 0 keeps its request. -/
theorem test_channels :
    (match stepChannel 1 [⟨some (.decompose 1), [], []⟩, ⟨some (.decompose 2), [], []⟩] with
      | .next cs => some cs
      | _ => none) =
      some [⟨some (.decompose 1), [], []⟩, ⟨none, [], [.fields 2 0]⟩] := by decide

/-- A reset event of channel 0 leaves the request of channel 1 in flight (log entry 14). -/
theorem test_channel_reset :
    (match stepChannel 0 [⟨some (.decompose 1), [.reset], []⟩, ⟨some (.decompose 2), [], []⟩] with
      | .next cs => some cs
      | _ => none) =
      some [⟨none, [], []⟩, ⟨some (.decompose 2), [], []⟩] := by decide

/-! ### Witnesses: concrete values that meet the hypotheses of each statement

One theorem per statement with hypotheses, one conjunct per clause, at boundary values. -/

theorem witness_MemWriteIsBigEndianAndLocal :
    (0 : Nat) < 4 ∧ (3 : Nat) < 4 ∧ ((3 : Nat) < 4 ∨ 4 + 4 ≤ 3) ∧
    ((8 : Nat) < 4 ∨ 4 + 4 ≤ 8) := by decide

theorem witness_TwosComplementRoundTrip :
    0 < 8 ∧ -2 ^ (8 - 1) ≤ (-128 : Int) ∧ (127 : Int) ≤ 2 ^ (8 - 1) - 1 := by decide

theorem witness_DecodeOfEncode :
    (Instr.compose 255 (-256)).wf = true ∧ (Instr.compose 255 (-256)).fitsPort leastPort ∧
    (Instr.status 0xFFFF 255 [1, 2, 3, 4, 5, 6, 7, 8]).wf = true ∧
    (Instr.status 0xFFFF 255 [1, 2, 3, 4, 5, 6, 7, 8]).fitsPort leastPort ∧
    (Instr.noRecord 0 0 0 []).wf = true ∧ (Instr.noRecord 0 0 0 []).fitsPort leastPort := by decide

theorem witness_DecoderRejectsOnlyIllegalKinds :
    ((physEncode 1 67 0).op = 2#2 ∧ (physEncode 1 67 0).kind.toNat ∉ commandIds) ∧
    ¬ ((physEncode 1 72 0).op = 2#2 ∧ (physEncode 1 72 0).kind.toNat ∉ commandIds) ∧
    ¬ ((physCompose 1 67).op = 2#2 ∧ (physCompose 1 67).kind.toNat ∉ commandIds) := by decide

/-- One physical request for each premise; nodes at both ends of the 9-bit field, kinds 1, 68 and 72,
each flag clear and set, a listed and an unlisted type id. -/
theorem witness_PhysicalFieldsAreReadAsNumbered :
    (physCompose 0x100 0x0FF).op = 0#2 ∧
    (⟨1, 0, 0, 0x4443, 0, 0, 0, 0, 0, []⟩ : PhysRequest 9).op = 1#2 ∧
    ((physEncode 0x0FF 1 0).op = 2#2 ∧ (physEncode 0x0FF 1 0).kind = 1#8) ∧
    ((physEncode 0x100 68 0).op = 2#2 ∧ (physEncode 0x100 68 0).kind = 68#8 ∧
      (physEncode 0x100 68 0).velPresent = 0#1) ∧
    ((⟨2, 31, 0, 0, 68, 1, 2, 1, 0, []⟩ : PhysRequest 9).kind = 68#8 ∧
      (⟨2, 31, 0, 0, 68, 1, 2, 1, 0, []⟩ : PhysRequest 9).velPresent = 1#1) ∧
    ((physEncode 31 72 0).kind = 72#8 ∧ (physEncode 31 72 0).store = 0#1) ∧
    ((⟨2, 31, 0, 0, 72, 1, 0, 0, 1, []⟩ : PhysRequest 9).kind = 72#8 ∧
      (⟨2, 31, 0, 0, 72, 1, 0, 0, 1, []⟩ : PhysRequest 9).store = 1#1) ∧
    ((physDecode 0xFFFF1B0A []).op = 3#2 ∧
      (physDecode 0xFFFF1B0A []).identifier.toNat / 256 % 256 = (statusTypeId .status5).toNat) ∧
    ((physDecode 0x4443 []).op = 3#2 ∧
      (physDecode 0x4443 []).identifier.toNat / 256 % 256 ∉ statusIds) := by decide

theorem witness_IdentifierHighBitsIgnored :
    (0x1FFF091F : Ident32).extractLsb' 0 16 = (0x0000091F : Ident32).extractLsb' 0 16 := by decide

/-- SetPosition and SetPositionFloat to node 255: two answers, each a frame. Used twice each, either
meets all four premises. -/
theorem witness_FrameIdentifiersAreInjective :
    exec (encodeInstr 255 (.setPosition 0)) State.reset =
      .next ⟨none, [], State.reset.responses ++ [.frame 0x4FF true [0, 0, 0, 0]]⟩ ∧
    exec (encodeInstr 255 (.setPositionFloat 0 none)) State.reset =
      .next ⟨none, [], State.reset.responses ++ [.frame 0x44FF true [0, 0, 0, 0]]⟩ :=
  ⟨eq_next_of_nextOf (by decide +kernel), eq_next_of_nextOf (by decide +kernel)⟩

theorem witness_DecimalLiteralIsNearest :
    |((25 : Nat) : Rat) * 10 ^ (-1 : Int)| < 2 ^ 1024 - 2 ^ 970 ∧
    |((0 : Nat) : Rat) * 10 ^ (0 : Int)| < 2 ^ 1024 - 2 ^ 970 := by
  have h : (5 / 2 : Rat) < 2 ^ 1024 - 2 ^ 970 ∧ (2 : Rat) ^ 970 < 2 ^ 1024 := by decide +kernel
  constructor <;> norm_num
  · exact h.1
  · exact h.2

theorem witness_ComposeGivesIdentifierOrRangeError :
    (isByte 0 ∧ isByte 255) ∧ (¬ isByte 256 ∧ ¬ isByte (-1)) ∧ (isByte 255 ∧ ¬ isByte (-1)) := by
  decide

theorem witness_ComposeDecomposeRoundTrip :
    (isByte 255 ∧ isByte 0) ∧ (0xFFFF : Ident32).toNat < 65536 := by decide

/-- 2147483.647, -2147483.648 and -0.0 are frames of SetCurrent; nan, inf, 1e308, 2147483.648 and
-2147483.649 are not. -/
theorem witness_SetCurrentBehaviour :
    (¬ isByte 256 ∧ ¬ isByte (-1)) ∧
    (isByte 255 ∧ framesInt 0x4140624DD2D0E560#64 1000 ∧ framesInt 0xC140624DD2F1A9FC#64 1000 ∧
      framesInt 0x8000000000000000#64 1000) ∧
    (isByte 0 ∧ isNaN 0x7FF8000000000001#64 ∧ isInf 0xFFF0000000000000#64 ∧
      isInf (mul64 0x7FE1CCF385EBC8A0#64 1000) ∧ leavesInt32 0x4140624DD2F1A9FC#64 1000 ∧
      leavesInt32 0xC140624DD3126E98#64 1000) := by
  decide +kernel

/-- 2147483647.5 and -2147483648.5 are frames of SetRpm; 2147483648 and -2147483649 are not. -/
theorem witness_SetRpmBehaviour :
    ¬ isByte 256 ∧
    (isByte 1 ∧ framesInt 0x41DFFFFFFFE00000#64 1 ∧ framesInt 0xC1E0000000100000#64 1) ∧
    (isByte 1 ∧ leavesInt32 0x41E0000000000000#64 1 ∧ leavesInt32 0xC1E0000000200000#64 1) := by
  decide +kernel

/-- -2147.483648 is a frame of SetPosition; 2148.0 is not. -/
theorem witness_SetPositionBehaviour :
    ¬ isByte (-1) ∧ (isByte 2 ∧ framesInt 0xC0A0C6F7A0B5ED8D#64 1000000) ∧
    (isByte 2 ∧ leavesInt32 0x40A0C80000000000#64 1000000) := by decide +kernel

/-- Of the values just below and at 2^128 - 2^103 the second overflows; a NaN and an infinity do
not. -/
theorem witness_GainCommandsBehaviour :
    ¬ isByte (-1) ∧
    (isByte 255 ∧ ¬ overflows32 0x47EFFFFFEFFFFFFF#64 ∧ ¬ overflows32 0x7FF8000000000000#64 ∧
      ¬ overflows32 0xFFF0000000000000#64) ∧
    (isByte 0 ∧ overflows32 0x47EFFFFFF0000000#64) := by decide +kernel

theorem witness_MotionCommandsBehaviour :
    ¬ isByte 256 ∧ (isByte 4 ∧ ¬ overflows32 0xC004000000000000#64) ∧
    (isByte 4 ∧ overflows32 0xC7EFFFFFF0000000#64) := by decide +kernel

/-- Velocities: -0.0 and nan are not strictly positive; the smallest subnormal and inf are. -/
theorem witness_SetPositionFloatBehaviour :
    ¬ isByte 256 ∧ (isByte 67 ∧ overflows32 0x48078287F49C4A1D#64) ∧
    (isByte 67 ∧ ¬ overflows32 0x4014000000000000#64 ∧ ¬ strictlyPositive 0x8000000000000000#64 ∧
      ¬ strictlyPositive 0x7FF8000000000000#64) ∧
    (strictlyPositive 0x48078287F49C4A1D#64 ∧ overflows32 0x48078287F49C4A1D#64) ∧
    (strictlyPositive 0x0000000000000001#64 ∧ ¬ overflows32 0x0000000000000001#64) ∧
    (strictlyPositive 0x7FF0000000000000#64 ∧ ¬ overflows32 0x7FF0000000000000#64) := by
  decide +kernel

theorem witness_SetStoredPositionBehaviour :
    ¬ isByte 256 ∧ (isByte 5 ∧ ¬ overflows32 0x4024000000000000#64) ∧
    (isByte 5 ∧ overflows32 0x48078287F49C4A1D#64) := by decide +kernel

/-- 2.5 times 1000 does not overflow; 1e308 times 1000 does. -/
theorem witness_Mul64IsTheNearestProduct :
    (isFinite 0x4004000000000000#64 ∧
      |f64Value 0x4004000000000000#64 * (1000 : Nat)| < 2 ^ 1024 - 2 ^ 970) ∧
    (isFinite 0x7FE1CCF385EBC8A0#64 ∧
      2 ^ 1024 - 2 ^ 970 ≤ |f64Value 0x7FE1CCF385EBC8A0#64 * (1000 : Nat)|) := by
  decide +kernel

theorem witness_TruncIsTheIntegerPart :
    isFinite 0xBFFE666666666666#64 ∧ isFinite 0x0000000000000000#64 := by decide +kernel

theorem witness_Rne32IsTheNearestSingle :
    isNaN 0x8000000000000000#64 = false ∧ isInf 0xFFF0000000000000#64 ∧
    (isFinite 0x47EFFFFFEFFFFFFF#64 ∧ |f64Value 0x47EFFFFFEFFFFFFF#64| < 2 ^ 128 - 2 ^ 103) ∧
    (isFinite 0x47EFFFFFF0000000#64 ∧ 2 ^ 128 - 2 ^ 103 ≤ |f64Value 0x47EFFFFFF0000000#64|) := by
  decide +kernel

theorem witness_FloatFieldHoldsTheNearestSingle :
    isNaN 0x7FF0000000000001#64 ∧
    (isFinite 0xC7EFFFFFF0000000#64 ∧ 2 ^ 128 - 2 ^ 103 ≤ |f64Value 0xC7EFFFFFF0000000#64|) ∧
    (isFinite 0x8000000000000000#64 ∧ |f64Value 0x8000000000000000#64| < 2 ^ 128 - 2 ^ 103) := by
  decide +kernel

/-- Integer parts -1 of -1.9, -2147483648 of -2147483648.5, and 0 of 0. -/
theorem witness_RpmIsTruncatedTowardZero :
    isByte 255 ∧ integerPart (-1) 0xBFFE666666666666#64 ∧
    integerPart (-2147483648) 0xC1E0000000100000#64 ∧
    integerPart 0 0x0000000000000000#64 := by decide +kernel

theorem witness_ScalingRoundTripBound :
    0 < 1000 ∧ scaledInt32 0xC140624DD2F1A9FC#64 1000 .current = .ok 0x80000000#32 := by
  decide +kernel

theorem witness_StatusBehaviour :
    [0x00, 0x00, 0x3A, 0x98, 0x00, 0x64, (0x03 : Byte)].length < 8 ∧ ([] : List Byte).length < 8 := by
  decide

/-- Seven bytes are short for each of these four. -/
theorem witness_ChargeStatusBehaviour_Status4Behaviour_Status6Behaviour :
    [(0x0C : Byte), 0xE4, 0x00, 0x00, 0x03, 0xE8, 0xFC].length < 8 := by decide

theorem witness_Status5Behaviour : [0x00, 0x00, 0x00, 0x07, (0x01 : Byte)].length < 6 := by decide

theorem witness_NoRecordBehaviour :
    (0xFFFFFFFF : Ident32).toNat / 256 % 256 ∉ statusIds ∧
    (0x11F : Ident32).toNat / 256 % 256 ∉ statusIds := by decide

theorem witness_DecodeClassifiesThenChecksLength :
    (0x1B0A : Ident32).toNat / 256 % 256 = (statusTypeId .status5).toNat ∧
    [(0 : Byte), 0, 0, 7, 1].length < reqLen .status5 ∧
    reqLen .status5 ≤ [(0 : Byte), 0, 0, 7, 1, 0xF4].length ∧
    (0x4443 : Ident32).toNat / 256 % 256 ∉ statusIds := by decide

theorem witness_TrailingBytesIgnored :
    (0x1B0A : Ident32).toNat / 256 % 256 = (statusTypeId .status5).toNat ∧
    [(0xFF : Byte), 0xFF, 0xFF, 0xFA, 0x01, 0xF4].length = reqLen .status5 := by decide

theorem witness_F64ViewIsTheNearestQuotient :
    1 ≤ (⟨-2147483648, 1, -2147483648⟩ : ScaledField).div ∧
    |(⟨-2147483648, 1, -2147483648⟩ : ScaledField).raw| ≤ 2 ^ 31 := by decide

theorem witness_ResetDiscardsTheRequest :
    (⟨some (.decompose 1), [.reset, .quiet], []⟩ : State).inputs = .reset :: [.quiet] := rfl

theorem witness_IdleBlockAcceptsRequest :
    (⟨none, [.request (.decompose 1)], []⟩ : State).inflight = none ∧
    (⟨none, [.request (.decompose 1)], []⟩ : State).inputs = .request (.decompose 1) :: [] := by
  decide

/-- A request in flight, and another waiting at the port. -/
theorem witness_RequestInFlightIsAnswered :
    (⟨some (.decompose 1), [.request (.decompose 2)], []⟩ : State).inflight =
      some (.decompose 1) ∧
    noReset (⟨some (.decompose 1), [.request (.decompose 2)], []⟩ : State).inputs := by decide

theorem witness_ResponseDependsOnRequestAlone :
    (⟨some (.compose 256 0), [], [.fields 0 0]⟩ : State).inflight = some (.compose 256 0) ∧
    noReset (⟨some (.compose 256 0), [], [.fields 0 0]⟩ : State).inputs := by decide

theorem witness_StepRunsTheDecodedInstruction :
    (⟨none, [.physical 9 (physCompose 67 68), .quiet], []⟩ : State).inflight = none ∧
    (⟨none, [.physical 9 (physCompose 67 68), .quiet], []⟩ : State).inputs =
      .physical 9 (physCompose 67 68) :: [.quiet] ∧
    decode (physCompose 67 68) = .ok (.compose 67 68) ∧ noReset [.quiet] := by decide

theorem witness_IllegalKindIsAnsweredInBand :
    (⟨none, [.physical 9 (physEncode 1 67 0)], []⟩ : State).inflight = none ∧
    (⟨none, [.physical 9 (physEncode 1 67 0)], []⟩ : State).inputs =
      .physical 9 (physEncode 1 67 0) :: [] ∧
    (physEncode 1 67 0).op = 2#2 ∧ (physEncode 1 67 0).kind.toNat ∉ commandIds ∧
    step ⟨none, [.physical 9 (physEncode 1 67 0)], []⟩ =
      .next ⟨none, [], [] ++ [.error .illegalRequest (.illegalInfo 67)]⟩ :=
  ⟨rfl, rfl, rfl, by decide, eq_next_of_nextOf (by decide)⟩

theorem witness_IdleBlockHoldsStill :
    State.reset.inflight = none ∧ State.reset.inputs = [] ∧
    (⟨none, [.quiet, .reset], []⟩ : State).inputs = .quiet :: [.reset] := by decide

/-- A request in flight, an illegal physical request at an idle block, and nothing at all. -/
theorem witness_OnlyRequestsAreAnswered :
    step ⟨none, [.physical 9 (physEncode 1 67 0)], [.fields 0 0]⟩ =
      .next ⟨none, [], [.fields 0 0, .error .illegalRequest (.illegalInfo 67)]⟩ ∧
    step ⟨some (.decompose 0x11F), [], [.fields 0 0]⟩ =
      .next ⟨none, [], [.fields 0 0, .fields 31 1]⟩ ∧ step State.reset = .next State.reset :=
  ⟨eq_next_of_nextOf (by decide), eq_next_of_nextOf (by decide), eq_next_of_nextOf (by decide)⟩

/-- A legal state with a delivered response, and the next state of a step from it. -/
theorem witness_StepKeepsResponsesLegal :
    (⟨some (.compose 300 0), [], [.noRecord 31 2]⟩ : State).legal ∧
    step ⟨some (.compose 300 0), [], [.noRecord 31 2]⟩ =
      .next ⟨none, [], [.noRecord 31 2, .error .rangeError (.rangeInfo .node 300)]⟩ := by
  constructor
  · intro r hr
    simp only [List.mem_singleton] at hr
    subst hr; decide
  · exact eq_next_of_nextOf (by decide)

/-- Two requests, the first an error, and a quiet moment after them. -/
theorem witness_RequestsAnsweredInOrder :
    (⟨none, [.request (.compose 256 0), .request (.decompose 1), .quiet], []⟩ : State).inflight =
      none ∧ noReset [.quiet] ∧
    (⟨none, [.request (.compose 256 0), .request (.decompose 1), .quiet], []⟩ : State).inputs =
      [.compose 256 0, .decompose 1].map Input.request ++ [.quiet] := by decide

theorem eq_next_of_nextChannels {o : Host.Outcome Channels Fault Refusal} {cs : Channels}
    (h : (match o with | .next cs => some cs | _ => none) = some cs) : o = .next cs := by
  cases o <;> simp_all

/-- Two channels with a request each, and the four steps. -/
theorem witness_ChannelsAreIndependent :
    (0 : Nat) ≠ 1 ∧
    stepChannel 0 [⟨some (.decompose 1), [], []⟩, ⟨some (.decompose 2), [], []⟩] =
      .next [⟨none, [], [.fields 1 0]⟩, ⟨some (.decompose 2), [], []⟩] ∧
    stepChannel 1 [⟨none, [], [.fields 1 0]⟩, ⟨some (.decompose 2), [], []⟩] =
      .next [⟨none, [], [.fields 1 0]⟩, ⟨none, [], [.fields 2 0]⟩] ∧
    stepChannel 1 [⟨some (.decompose 1), [], []⟩, ⟨some (.decompose 2), [], []⟩] =
      .next [⟨some (.decompose 1), [], []⟩, ⟨none, [], [.fields 2 0]⟩] ∧
    stepChannel 0 [⟨some (.decompose 1), [], []⟩, ⟨none, [], [.fields 2 0]⟩] =
      .next [⟨none, [], [.fields 1 0]⟩, ⟨none, [], [.fields 2 0]⟩] :=
  ⟨by decide, eq_next_of_nextChannels (by decide), eq_next_of_nextChannels (by decide),
    eq_next_of_nextChannels (by decide), eq_next_of_nextChannels (by decide)⟩

end Sys2Proof.Tests
end

section
/-!
PROOFS for `00_scope.md` (R10 to R12): byte order of the payload spaces and two's complement.
-/

namespace Sys2Proof.Machine

/-! ### Byte order and the payload spaces (R11, R12, R43) -/

/-- A byte of significance `n - 1 - k` as arithmetic (R11). -/
theorem beByte_eq_ofNat (n : Nat) (v : BitVec (8 * n)) (k : Nat) :
    beByte n v k = BitVec.ofNat 8 (v.toNat / 2 ^ (8 * (n - 1 - k))) := by
  apply BitVec.eq_of_toNat_eq
  simp [beByte, BitVec.extractLsb'_toNat, Nat.shiftRight_eq_div_pow]

theorem getElem?_beBytes {n k : Nat} (v : BitVec (8 * n)) (hk : k < n) :
    (beBytes n v)[k]? = some (BitVec.ofNat 8 (v.toNat / 2 ^ (8 * (n - 1 - k)))) := by
  simp [beBytes, hk, beByte_eq_ofNat]

theorem readByte_memWrite (m : Memory) (off n : Nat) (v : BitVec (8 * n)) (a : Nat) :
    readByte (memWrite m off n v) a =
      if off ≤ a ∧ a < off + n then (beBytes n v)[a - off]? else readByte m a := by
  rw [memWrite, readByte_writeBytes, length_beBytes]

/-- Settles O1: a read inside the range finds a byte of `be_n(v)`, and one outside the old value. -/
theorem memWriteIsBigEndianAndLocal : Obligations.MemWriteIsBigEndianAndLocal := by
  intro m off n v
  constructor
  · intro k hk
    rw [readByte_memWrite, if_pos (by omega), Nat.add_sub_cancel_left, getElem?_beBytes v hk]
  · intro a ha
    rw [readByte_memWrite, if_neg (by omega)]

/-- A write above every offset in use goes to the end. -/
theorem writeByte_of_above {m : Memory} {off : Nat} (v : Byte) (h : ∀ c ∈ m, c.1 < off) :
    writeByte m off v = m ++ [(off, v)] := by
  induction m with
  | nil => rfl
  | cons c m ih =>
    obtain ⟨a, b⟩ := c
    have ha : a < off := h (a, b) List.mem_cons_self
    have hm : ∀ c ∈ m, c.1 < off := fun c hc => h c (List.mem_cons_of_mem _ hc)
    rw [writeByte, if_neg (by omega), if_neg (by omega), ih hm, List.cons_append]

/-- A run of writes above every offset in use appends its bytes to the payload. -/
theorem payloadBytes_writeBytes_of_above {m : Memory} {off : Nat} (bs : List Byte)
    (h : ∀ c ∈ m, c.1 < off) : payloadBytes (writeBytes m off bs) = payloadBytes m ++ bs := by
  induction bs generalizing m off with
  | nil => simp [writeBytes]
  | cons b bs ih =>
    have habove : ∀ c ∈ writeByte m off b, c.1 < off + 1 := by
      intro c hc
      rcases mem_writeByte hc with heq | hmem
      · omega
      · exact Nat.lt_succ_of_lt (h c hmem)
    rw [writeBytes, ih habove, writeByte_of_above b h]
    simp [payloadBytes]

theorem payloadBytes_memWrite_nil (n : Nat) (v : BitVec (8 * n)) :
    payloadBytes (memWrite [] 0 n v) = beBytes n v :=
  payloadBytes_writeBytes_of_above (beBytes n v) (by simp)

/-- The first `k` bytes, read most significant first, are the top `8k` bits. -/
theorem beVal_beBytes_prefix {n k : Nat} (v : BitVec (8 * n)) (hk : k ≤ n) :
    beVal (beBytes n v) 0 k = v.toNat / 2 ^ (8 * (n - k)) := by
  induction k with
  | zero => simp [beVal, Nat.div_eq_of_lt v.isLt]
  | succ k ih =>
    have hsplit : v.toNat / 2 ^ (8 * (n - k)) = v.toNat / 2 ^ (8 * (n - (k + 1))) / 2 ^ 8 := by
      rw [Nat.div_div_eq_div_mul, show n - k = n - (k + 1) + 1 by omega, Nat.mul_succ, pow_add]
    have hbyte : ((beBytes n v).getD k 0).toNat = v.toNat / 2 ^ (8 * (n - (k + 1))) % 256 := by
      rw [List.getD_eq_getElem?_getD, getElem?_beBytes v hk, Nat.sub_sub, Nat.add_comm 1 k]
      simp
    rw [beVal, ih (by omega), Nat.zero_add, hbyte, hsplit]
    omega

theorem beVal_beBytes (n : Nat) (v : BitVec (8 * n)) : beVal (beBytes n v) 0 n = v.toNat := by
  simp [beVal_beBytes_prefix v le_rfl]

/-- Settles O2: the payload written is `be_n(v)`, and `be_val` inverts it, whatever follows. -/
theorem memReadOfMemWrite : Obligations.MemReadOfMemWrite := by
  intro n v rest
  have hlen : 0 + n ≤ (beBytes n v).length := by simp
  rw [memRead, payloadBytes_memWrite_nil, beVal_append _ _ _ _ hlen, beVal_beBytes,
    BitVec.ofNat_toNat, BitVec.setWidth_eq]

/-! ### Two's complement (R10) -/

theorem sint_twos {N : Nat} (hN : 0 < N) {n : Int} (hlo : -2 ^ (N - 1) ≤ n)
    (hhi : n ≤ 2 ^ (N - 1) - 1) : sint (twos N n) = n := by
  rw [sint_eq_toInt, twos_eq_ofInt]
  exact BitVec.toInt_ofInt_eq_self hN hlo (by omega)

theorem twos_sint {N : Nat} (b : BitVec N) : twos N (sint b) = b := by
  rw [sint_eq_toInt, twos_eq_ofInt, BitVec.ofInt_toInt]

theorem sint_range {N : Nat} (b : BitVec N) :
    -2 ^ (N - 1) ≤ sint b ∧ sint b ≤ 2 ^ (N - 1) - 1 := by
  rw [sint_eq_toInt]
  exact ⟨BitVec.le_toInt b, BitVec.toInt_le⟩

/-- Settles O3: `sint` and `twos` are the library's `toInt` and `ofInt`. -/
theorem twosComplementRoundTrip : Obligations.TwosComplementRoundTrip := by
  intro N hN
  refine ⟨fun n hlo hhi => sint_twos hN hlo hhi, fun b => ?_⟩
  obtain ⟨hlo, hhi⟩ := sint_range b
  exact ⟨hlo, hhi, twos_sint b⟩

end Sys2Proof.Machine
end

section
/-!
PROOFS for `10_state.md` (R20 to R31): the classification of a typed request (R27), the transaction
slot (R29, R30), the response as a function of its request (R20) and independent channels (R31).
-/

namespace Sys2Proof.Machine

open Sys2Proof.Certificates

/-! ### Classification of a typed request (R27, R65, R150) -/

/-- The three fields of an identifier are all of its bits (R62). -/
theorem ident32_of_fields (d : Ident32) :
    ident32 (ignoredField d) (typeIdField d) (nodeField d) = d := by
  apply BitVec.eq_of_toNat_eq
  rw [ident32_toNat, ignoredField_toNat, typeIdField_toNat, nodeField_toNat]
  omega

/-- A type id found in the Status table is the one its row lists (R64). -/
theorem statusTypeId_of_statusKindOf {t : Byte} {k : StatusKind} (h : statusKindOf t = some k) :
    statusTypeId k = t := by
  apply BitVec.eq_of_toNat_eq
  unfold statusKindOf at h
  split at h <;> cases h <;> exact Eq.symm ‹t.toNat = _›

theorem decodeInstr_of_some {d : Ident32} {k : StatusKind} (p : List Byte)
    (h : statusKindOf (typeIdField d) = some k) :
    decodeInstr d p = rowOf k (ignoredField d) (nodeField d) p := by
  cases k <;> simp [decodeInstr, h]

theorem decodeInstr_of_none {d : Ident32} (p : List Byte)
    (h : statusKindOf (typeIdField d) = none) :
    decodeInstr d p = .noRecord (ignoredField d) (typeIdField d) (nodeField d) p := by
  simp [decodeInstr, h]

@[simp] theorem rowOf_wf (k : StatusKind) (hi : BitVec 16) (n : Byte) (p : List Byte) :
    (rowOf k hi n p).wf = true := by
  cases k <;> rfl

@[simp] theorem instrRequest_rowOf (k : StatusKind) (hi : BitVec 16) (n : Byte) (p : List Byte) :
    instrRequest (rowOf k hi n p) = .decode (ident32 hi (statusTypeId k) n) p := by
  cases k <;> rfl

@[simp] theorem encodeInstr_wf (node : Int) (c : Command) : (encodeInstr node c).wf = true := by
  cases c <;> rfl

@[simp] theorem instrRequest_encodeInstr (node : Int) (c : Command) :
    instrRequest (encodeInstr node c) = .encode node c := by
  cases c <;> rfl

theorem decodeInstr_wf (d : Ident32) (p : List Byte) : (decodeInstr d p).wf = true := by
  cases h : statusKindOf (typeIdField d) with
  | none => simp [decodeInstr_of_none p h, Instr.wf, h]
  | some k => rw [decodeInstr_of_some p h, rowOf_wf]

/-- The row of a DECODE request keeps every identifier bit: the type id of a status row is its
table's, and `noRecord` carries its own. -/
theorem instrRequest_decodeInstr (d : Ident32) (p : List Byte) :
    instrRequest (decodeInstr d p) = .decode d p := by
  cases h : statusKindOf (typeIdField d) with
  | none => rw [decodeInstr_of_none p h, instrRequest, ident32_of_fields]
  | some k =>
    rw [decodeInstr_of_some p h, instrRequest_rowOf, statusTypeId_of_statusKindOf h,
      ident32_of_fields]

theorem requestInstr_wf (r : Request) : (requestInstr r).wf = true := by
  cases r with
  | compose node typeId => rfl
  | decompose d => rfl
  | encode node c => exact encodeInstr_wf node c
  | decode d p => exact decodeInstr_wf d p

@[simp] theorem instrRequest_requestInstr (r : Request) : instrRequest (requestInstr r) = r := by
  cases r with
  | compose node typeId => rfl
  | decompose d => rfl
  | encode node c => exact instrRequest_encodeInstr node c
  | decode d p => exact instrRequest_decodeInstr d p

/-- Settles O8, by the kind of the request; a DECODE request by the Status table's answer. -/
theorem classificationLosesNothing : Obligations.ClassificationLosesNothing :=
  fun r => ⟨requestInstr_wf r, instrRequest_requestInstr r⟩

/-! ### The rules of a step (R29, R240) -/

theorem resetAsserted_eq_false_iff (s : State) :
    resetAsserted s = false ↔ noReset s.inputs := by
  unfold resetAsserted
  rcases s.inputs with _ | ⟨_ | _ | _ | _, rest⟩ <;> simp

/-- With a request in flight and no reset next, a step is that request's instruction. -/
theorem step_of_inflight {s : State} {r : Request} (hslot : s.inflight = some r)
    (hreset : noReset s.inputs) : step s = exec (requestInstr r) s := by
  simp [step, (resetAsserted_eq_false_iff s).2 hreset, hslot]

/-- An idle block takes the next event of its port, a reset or any other. -/
theorem step_of_idle {s : State} (hslot : s.inflight = none) :
    step s = .next (takeNextInput s) := by
  simp [step, hslot]

theorem takeNextInput_nil {s : State} (h : s.inputs = []) : takeNextInput s = s := by
  simp [takeNextInput, h]

theorem takeNextInput_cons {s : State} {e : Input} {rest : List Input}
    (h : s.inputs = e :: rest) : takeNextInput s = takeInput e { s with inputs := rest } := by
  simp [takeNextInput, h]

theorem step_of_idle_cons {s : State} {e : Input} {rest : List Input}
    (hslot : s.inflight = none) (hport : s.inputs = e :: rest) :
    step s = .next (takeInput e { s with inputs := rest }) := by
  rw [step_of_idle hslot, takeNextInput_cons hport]

theorem takeInput_physical_of_ok {w : Nat} {p : PhysRequest w} {r : Request} (s : State)
    (h : physRequest p = .ok r) : takeInput (.physical w p) s = accept r s := by
  simp [takeInput, h]

/-- Every step answers a next state: neither the dispatch nor the port stops the block. -/
theorem exists_step_eq_next (s : State) : ∃ t : State, step s = .next t := by
  rcases step_cases s with ⟨rest, _, h⟩ | ⟨_, r, _, h⟩ | ⟨_, _, h⟩
  · exact ⟨_, h⟩
  · obtain ⟨a, ha⟩ := exec_delivers (requestInstr r)
    exact ⟨_, h.trans (ha s)⟩
  · exact ⟨_, h⟩

/-! ### One response per request, and from the request alone (R20, R28) -/

/-- Settles O46: `respond r` is the response `exec_delivers` gives for the row of `r`. -/
theorem responseDependsOnRequestAlone : Obligations.ResponseDependsOnRequestAlone := by
  choose respond hrespond using fun r : Request => exec_delivers (requestInstr r)
  refine ⟨respond, fun s r hslot hreset => ?_⟩
  calc step s = exec (requestInstr r) s := step_of_inflight hslot hreset
    _ = .next (afterResponse s (respond r)) := hrespond r s

/-- Settles O41: the response is the one O46's function gives. -/
theorem requestInFlightIsAnswered : Obligations.RequestInFlightIsAnswered := by
  obtain ⟨respond, hrespond⟩ := responseDependsOnRequestAlone
  exact fun s r hslot hreset =>
    ⟨step_of_inflight hslot hreset, respond r, hrespond s r hslot hreset⟩

/-! ### Channels (R31, R51) -/

/-- A step of a channel applies the step of a single block to that position of the list, and to no
other; a number that names no channel changes nothing. -/
theorem stepChannel_eq_modify {next : State → State} (hnext : ∀ s, step s = .next (next s))
    (k : Nat) (cs : Channels) : stepChannel k cs = .next (cs.modify k next) := by
  unfold stepChannel
  cases h : cs[k]? with
  | none => simp [List.modify_eq_self (List.getElem?_eq_none_iff.1 h)]
  | some s => simp [hnext, List.modify_eq_set_getElem?, h]

/-- Settles O51: two updates of different positions of a list commute. -/
theorem channelsAreIndependent : Obligations.ChannelsAreIndependent := by
  choose next hnext using exists_step_eq_next
  have hchannel := stepChannel_eq_modify hnext
  constructor
  · intro cs k hk
    refine ⟨next cs[k], hnext _, ?_⟩
    rw [hchannel, List.modify_eq_set_get next hk, List.get_eq_getElem]
  · intro cs a b c d j k hjk ha hb hc hd
    rw [hchannel] at ha hb hc hd
    cases ha; cases hb; cases hc; cases hd
    exact List.modify_modify_ne next next cs hjk

/-! ### The transaction slot (R29, R30) -/

/-- Settles O38. -/
theorem resetLeavesTheSlotEmpty : Obligations.ResetLeavesTheSlotEmpty := reset_inflight

/-- Settles O49: nothing has been delivered at reset. -/
theorem resetResponsesLegal : Obligations.ResetResponsesLegal := by
  intro r hr
  rw [reset_responses] at hr
  exact absurd hr List.not_mem_nil

/-- Settles O40: the event taken is the request. -/
theorem idleBlockAcceptsRequest : Obligations.IdleBlockAcceptsRequest :=
  fun _ _ _ hslot hport => step_of_idle_cons hslot hport

/-- Settles O44: there is no event to take, or the event is a quiet moment. -/
theorem idleBlockHoldsStill : Obligations.IdleBlockHoldsStill := by
  intro s hslot
  constructor
  · intro hport
    rw [step_of_idle hslot, takeNextInput_nil hport]
  · intro rest hport
    exact step_of_idle_cons hslot hport

/-- What a decoded instruction says of the physical request: it stands for the request whose row is
that instruction. -/
theorem decode_eq_ok_iff {w : Nat} {p : PhysRequest w} {i : Instr} :
    decode p = .ok i ↔ ∃ r, physRequest p = .ok r ∧ requestInstr r = i := by
  unfold decode
  cases physRequest p <;> simp

/-- Settles O42: the request accepted is the one the decoder read, and its row is `i`. -/
theorem stepRunsTheDecodedInstruction : Obligations.StepRunsTheDecodedInstruction := by
  intro s w p i rest hslot hport hdecode
  obtain ⟨r, hphys, rfl⟩ := decode_eq_ok_iff.1 hdecode
  rw [instrRequest_requestInstr]
  constructor
  · rw [step_of_idle_cons hslot hport, takeInput_physical_of_ok _ hphys, accept]
  · exact fun hreset => step_of_inflight rfl hreset

end Sys2Proof.Machine
end

section
/-!
PROOFS for `20_memory.md` (R51): the order of the responses on a channel.
-/

namespace Sys2Proof.Machine

open Sys2Proof.Certificates

/-! ### Runs of the block -/

theorem run_zero (s : State) : Host.Core.run core 0 s = .next s := rfl

/-- A run of one step more goes on from where its first step leads. -/
theorem run_succ_of_step {s t : State} (h : step s = .next t) (n : Nat) :
    Host.Core.run core (n + 1) s = Host.Core.run core n t := by
  have hcore : core.step s = .next t := h
  simp only [Host.Core.run, hcore]

/-! ### One transaction after another (R29, R51) -/

/-- No reset is next while a request is, and none after the last of them. -/
theorem noReset_requests_append {tail : List Input} (htail : noReset tail) (rs : List Request) :
    noReset (rs.map Input.request ++ tail) := by
  cases rs with
  | nil => exact htail
  | cons r rs => simp

/-- A transaction (R29): two steps take the request at the port of an idle block and deliver the
response its instruction gives in every state. -/
theorem run_transaction {r : Request} {a : Response}
    (hexec : ∀ s, exec (requestInstr r) s = .next (afterResponse s a))
    {s : State} {rest : List Input} (hslot : s.inflight = none)
    (hport : s.inputs = .request r :: rest) (hreset : noReset rest) (n : Nat) :
    Host.Core.run core (n + 2) s =
      Host.Core.run core n (afterResponse { s with inputs := rest } a) := by
  have haccept := idleBlockAcceptsRequest s r rest hslot hport
  have hanswer : step { s with inflight := some r, inputs := rest } =
      .next (afterResponse { s with inputs := rest } a) :=
    (step_of_inflight rfl hreset).trans (hexec _)
  rw [run_succ_of_step haccept, run_succ_of_step hanswer]

/-- Settles O50, by induction on the requests: the first one's transaction leaves the block idle with
the others at its port. -/
theorem requestsAnsweredInOrder : Obligations.RequestsAnsweredInOrder := by
  choose respond hrespond using fun r : Request => exec_delivers (requestInstr r)
  refine ⟨respond, hrespond, fun rs => ?_⟩
  induction rs with
  | nil =>
    intro s tail hslot htail hport
    rw [List.map_nil, List.nil_append] at hport
    simp [run_zero, ← hport]
  | cons r rs ih =>
    intro s tail hslot htail hport
    calc Host.Core.run core (2 * rs.length + 2) s
        = Host.Core.run core (2 * rs.length)
            (afterResponse { s with inputs := rs.map Input.request ++ tail } (respond r)) :=
          run_transaction (hrespond r) hslot hport (noReset_requests_append htail rs) _
      _ = .next { s with inputs := tail, responses := s.responses ++ (r :: rs).map respond } := by
          rw [ih _ tail rfl htail rfl]
          simp [hslot]

end Sys2Proof.Machine
end

section
/-!
PROOFS for `30_encoding.md` (R60 to R75): the tables, the identifier fields, the physical request
decoder and its encoder, and the response codes.
-/

namespace Sys2Proof.Machine

open Sys2Proof.Certificates

/-! ### The Command and the Status table (R63 to R65) -/

@[simp] theorem commandKindOf_commandTypeId (k : CommandKind) :
    commandKindOf (commandTypeId k) = some k := by
  cases k <;> rfl

@[simp] theorem statusKindOf_statusTypeId (k : StatusKind) :
    statusKindOf (statusTypeId k) = some k := by
  cases k <;> rfl

/-- A type id found in the Command table is the one its row lists (R63). -/
theorem commandTypeId_of_commandKindOf {t : Byte} {k : CommandKind}
    (h : commandKindOf t = some k) : commandTypeId k = t := by
  apply BitVec.eq_of_toNat_eq
  unfold commandKindOf at h
  split at h <;> cases h <;> exact Eq.symm ‹t.toNat = _›

theorem commandKindOf_eq_some_iff {t : Byte} {k : CommandKind} :
    commandKindOf t = some k ↔ t = commandTypeId k := by
  constructor
  · exact fun h => (commandTypeId_of_commandKindOf h).symm
  · rintro rfl
    exact commandKindOf_commandTypeId k

theorem statusKindOf_eq_some_iff {t : Byte} {k : StatusKind} :
    statusKindOf t = some k ↔ t = statusTypeId k := by
  constructor
  · exact fun h => (statusTypeId_of_statusKindOf h).symm
  · rintro rfl
    exact statusKindOf_statusTypeId k

theorem commandKindOf_eq_none_iff {t : Byte} :
    commandKindOf t = none ↔ t.toNat ∉ commandIds := by
  unfold commandKindOf
  split <;> simp_all

theorem statusKindOf_eq_none_iff {t : Byte} :
    statusKindOf t = none ↔ t.toNat ∉ statusIds := by
  unfold statusKindOf
  split <;> simp_all

/-- No command shares its type id with a status (R65). -/
theorem statusKindOf_commandTypeId (k : CommandKind) :
    statusKindOf (commandTypeId k) = none := by
  cases k <;> rfl

/-- Settles O4: a type id found in the Command table is that of a command, which the Status table
does not hold. -/
theorem tablesAreDisjointAndFaithful : Obligations.TablesAreDisjointAndFaithful := by
  refine ⟨fun t => ?_, fun t k => commandKindOf_eq_some_iff, fun t k => statusKindOf_eq_some_iff⟩
  cases h : commandKindOf t with
  | none => exact .inl rfl
  | some k =>
    rw [← commandTypeId_of_commandKindOf h]
    exact .inr (statusKindOf_commandTypeId k)

/-- Settles O5, by evaluating the decoder on each word. -/
theorem tableWordsDecode : Obligations.TableWordsDecode := by
  refine ⟨?_, ?_, ?_, ?_, ?_, ?_, ?_⟩ <;> decide

/-! ### The fields of a decode-side identifier (R62) -/

theorem nodeField_eq_ofNat (d : Ident32) : nodeField d = BitVec.ofNat 8 (d.toNat % 256) := by
  apply BitVec.eq_of_toNat_eq
  rw [nodeField_toNat, BitVec.toNat_ofNat]
  omega

theorem typeIdField_eq_ofNat (d : Ident32) :
    typeIdField d = BitVec.ofNat 8 (d.toNat / 256 % 256) := by
  apply BitVec.eq_of_toNat_eq
  rw [typeIdField_toNat, BitVec.toNat_ofNat]
  omega

theorem ignoredField_eq_ofNat (d : Ident32) :
    ignoredField d = BitVec.ofNat 16 (d.toNat / 65536) := by
  apply BitVec.eq_of_toNat_eq
  rw [ignoredField_toNat, BitVec.toNat_ofNat]
  omega

/-- A DECODE of a listed type id is that row, its operands read off the identifier (R62, R64). -/
theorem decodeInstr_of_listed {d : Ident32} {k : StatusKind} (p : List Byte)
    (h : d.toNat / 256 % 256 = (statusTypeId k).toNat) :
    decodeInstr d p = rowOf k (BitVec.ofNat 16 (d.toNat / 65536))
      (BitVec.ofNat 8 (d.toNat % 256)) p := by
  have hk : statusKindOf (typeIdField d) = some k :=
    statusKindOf_eq_some_iff.2 (BitVec.eq_of_toNat_eq ((typeIdField_toNat d).trans h))
  rw [decodeInstr_of_some p hk, ignoredField_eq_ofNat, nodeField_eq_ofNat]

/-- A DECODE of any other type id is the no-record row (R66, R160). -/
theorem decodeInstr_of_unlisted {d : Ident32} (p : List Byte)
    (h : d.toNat / 256 % 256 ∉ statusIds) :
    decodeInstr d p = .noRecord (BitVec.ofNat 16 (d.toNat / 65536))
      (BitVec.ofNat 8 (d.toNat / 256 % 256)) (BitVec.ofNat 8 (d.toNat % 256)) p := by
  have hk : statusKindOf (typeIdField d) = none :=
    statusKindOf_eq_none_iff.2 (by rwa [typeIdField_toNat])
  rw [decodeInstr_of_none p hk, ignoredField_eq_ofNat, typeIdField_eq_ofNat, nodeField_eq_ofNat]

/-- Bits 15:0 hold the node and the type id. -/
theorem fields_eq_of_low_bits_eq {a b : Ident32} (h : a.extractLsb' 0 16 = b.extractLsb' 0 16) :
    nodeField a = nodeField b ∧ typeIdField a = typeIdField b := by
  have hlow : a.toNat % 65536 = b.toNat % 65536 := by
    simpa [BitVec.extractLsb'_toNat] using congrArg BitVec.toNat h
  constructor <;> apply BitVec.eq_of_toNat_eq
  · rw [nodeField_toNat, nodeField_toNat]
    omega
  · rw [typeIdField_toNat, typeIdField_toNat]
    omega

theorem exec_decompose_congr {a b : Ident32} (hnode : nodeField a = nodeField b)
    (htype : typeIdField a = typeIdField b) (s : State) :
    exec (.decompose a) s = exec (.decompose b) s := by
  simp only [exec, execDecompose, hnode, htype]

/-- No status row reads the ignored identifier bits (R62). -/
theorem exec_rowOf_ignored (k : StatusKind) (hi hi' : BitVec 16) (n : Byte) (p : List Byte)
    (s : State) : exec (rowOf k hi n p) s = exec (rowOf k hi' n p) s := by
  cases k <;> rfl

theorem exec_decodeInstr_congr {a b : Ident32} (hnode : nodeField a = nodeField b)
    (htype : typeIdField a = typeIdField b) (p : List Byte) (s : State) :
    exec (decodeInstr a p) s = exec (decodeInstr b p) s := by
  cases h : statusKindOf (typeIdField b) with
  | some k =>
    rw [decodeInstr_of_some p h, decodeInstr_of_some p (htype ▸ h), hnode]
    exact exec_rowOf_ignored k _ _ _ p s
  | none =>
    rw [decodeInstr_of_none p h, decodeInstr_of_none p (htype ▸ h), hnode, htype]
    rfl

/-- Settles O9: both requests are answered from the node and the type id, which are bits 15:0. -/
theorem identifierHighBitsIgnored : Obligations.IdentifierHighBitsIgnored := by
  intro a b p s h
  obtain ⟨hnode, htype⟩ := fields_eq_of_low_bits_eq h
  exact ⟨exec_decompose_congr hnode htype s, exec_decodeInstr_congr hnode htype p s⟩

/-! ### The physical request decoder (R74, R204) -/

theorem physRequest_of_op_zero {w : Nat} {p : PhysRequest w} (h : p.op = 0#2) :
    physRequest p = .ok (.compose (sint p.node) (sint p.typeId)) := by
  simp [physRequest, h]

theorem physRequest_of_op_one {w : Nat} {p : PhysRequest w} (h : p.op = 1#2) :
    physRequest p = .ok (.decompose p.identifier) := by
  simp [physRequest, h]

theorem physRequest_of_op_two {w : Nat} {p : PhysRequest w} {k : CommandKind} (h : p.op = 2#2)
    (hkind : p.kind = commandTypeId k) :
    physRequest p = .ok (.encode (sint p.node) (physCommand p k)) := by
  simp [physRequest, h, hkind]

theorem physRequest_of_op_three {w : Nat} {p : PhysRequest w} (h : p.op = 3#2) :
    physRequest p = .ok (.decode p.identifier p.payload) := by
  simp [physRequest, h]

/-- The one reason for a rejection, with the kind it names (R204). -/
theorem physRequest_eq_error_iff {w : Nat} {p : PhysRequest w} {k : BitVec 8} :
    physRequest p = .error (.illegalKind k) ↔
      (p.op = 2#2 ∧ p.kind.toNat ∉ commandIds) ∧ k = p.kind := by
  rw [← commandKindOf_eq_none_iff]
  rcases physRequest_cases p with ⟨hop, h⟩ | ⟨hop, h⟩ | ⟨hop, c, hc, h⟩ | ⟨hop, hc, h⟩ | ⟨hop, h⟩
  · simp [hop, h]
  · simp [hop, h]
  · simp [h, hc]
  · simp [hop, h, hc, eq_comm]
  · simp [hop, h]

theorem decode_of_physRequest_ok {w : Nat} {p : PhysRequest w} {r : Request}
    (h : physRequest p = .ok r) : decode p = .ok (requestInstr r) :=
  decode_eq_ok_iff.2 ⟨r, h, rfl⟩

theorem decode_of_physRequest_error {w : Nat} {p : PhysRequest w} {e : DecodeError}
    (h : physRequest p = .error e) : decode p = .error e := by
  simp [decode, h]

/-- Settles O7: the decoder rejects what its first stage rejects, and the row of a request is well
formed. -/
theorem decoderRejectsOnlyIllegalKinds : Obligations.DecoderRejectsOnlyIllegalKinds := by
  intro w p
  constructor
  · exact fun hillegal =>
      decode_of_physRequest_error (physRequest_eq_error_iff.2 ⟨hillegal, rfl⟩)
  · intro hlegal
    cases h : physRequest p with
    | ok r => exact ⟨requestInstr r, decode_of_physRequest_ok h, requestInstr_wf r⟩
    | error e =>
      obtain ⟨k⟩ := e
      obtain ⟨hillegal, -⟩ := physRequest_eq_error_iff.1 h
      exact absurd hillegal hlegal

/-- An ENCODE under a command's type id is that command, its parameters from their fields. -/
theorem decode_of_op_two {w : Nat} {p : PhysRequest w} {k : CommandKind} (h : p.op = 2#2)
    (hkind : p.kind = commandTypeId k) :
    decode p = .ok (encodeInstr p.node.toInt (physCommand p k)) := by
  rw [decode_of_physRequest_ok (physRequest_of_op_two h hkind), requestInstr, sint_eq_toInt]

theorem decode_of_op_three {w : Nat} {p : PhysRequest w} (h : p.op = 3#2) :
    decode p = .ok (decodeInstr p.identifier p.payload) :=
  decode_of_physRequest_ok (physRequest_of_op_three h)

theorem physCommand_positionFloat_absent {w : Nat} {p : PhysRequest w} (h : p.velPresent = 0#1) :
    physCommand p .setPositionFloat = .setPositionFloat p.p0 none := by
  simp [physCommand, bitSet, h]

theorem physCommand_positionFloat_present {w : Nat} {p : PhysRequest w}
    (h : p.velPresent = 1#1) :
    physCommand p .setPositionFloat = .setPositionFloat p.p0 (some p.p1) := by
  simp [physCommand, bitSet, h]

theorem physCommand_storedPosition_clear {w : Nat} {p : PhysRequest w} (h : p.store = 0#1) :
    physCommand p .setStoredPosition = .setStoredPosition p.p0 false := by
  simp [physCommand, bitSet, h]

theorem physCommand_storedPosition_set {w : Nat} {p : PhysRequest w} (h : p.store = 1#1) :
    physCommand p .setStoredPosition = .setStoredPosition p.p0 true := by
  simp [physCommand, bitSet, h]

/-- Settles O52, by `op`, then by the kind of an ENCODE and the type id of a DECODE. -/
theorem physicalFieldsAreReadAsNumbered : Obligations.PhysicalFieldsAreReadAsNumbered := by
  intro w p
  refine ⟨fun hop => ?_, fun hop => ?_, fun hop => ?_, fun hop => ?_⟩
  · rw [decode_of_physRequest_ok (physRequest_of_op_zero hop), sint_eq_toInt, sint_eq_toInt]
    rfl
  · exact decode_of_physRequest_ok (physRequest_of_op_one hop)
  · have hcommand (k : CommandKind) (hkind : p.kind = commandTypeId k) := decode_of_op_two hop hkind
    refine ⟨hcommand .setCurrent, hcommand .setRpm, hcommand .setPosition, hcommand .setKp,
      hcommand .setKi, hcommand .setKd, fun hkind hvel => ?_, fun hkind hvel => ?_,
      hcommand .setVelocity, hcommand .setAcceleration, hcommand .setDeceleration,
      fun hkind hstore => ?_, fun hkind hstore => ?_⟩
    · rw [hcommand .setPositionFloat hkind, physCommand_positionFloat_absent hvel, encodeInstr]
    · rw [hcommand .setPositionFloat hkind, physCommand_positionFloat_present hvel, encodeInstr]
    · rw [hcommand .setStoredPosition hkind, physCommand_storedPosition_clear hstore, encodeInstr]
    · rw [hcommand .setStoredPosition hkind, physCommand_storedPosition_set hstore, encodeInstr]
  · rw [decode_of_op_three hop]
    exact ⟨fun k hk => congrArg _ (decodeInstr_of_listed p.payload hk),
      fun hk => congrArg _ (decodeInstr_of_unlisted p.payload hk)⟩

/-! ### Decode of encode (R74) -/

/-- The integers of a request fit fields of `w` bits. -/
def requestFits (w : Nat) : Request → Prop
  | .compose node typeId => fitsInt w node ∧ fitsInt w typeId
  | .encode node _ => fitsInt w node
  | _ => True

/-- An instruction fits a port's integer fields when the request it stands for does. -/
theorem requestFits_instrRequest {w : Nat} (i : Instr) :
    requestFits w (instrRequest i) ↔ i.fitsWidth w := by
  cases i <;> rfl

theorem sint_twos_of_fitsInt {w : Nat} (hw : 0 < w) {n : Int} (h : fitsInt w n) :
    sint (twos w n) = n := by
  obtain ⟨hlo, hhi⟩ := h
  exact sint_twos hw hlo (by omega)

/-- The parameter fields of a command, and its two flags, give the command back. -/
theorem physCommand_encodeRequest (w : Nat) (node : Int) (c : Command) :
    physCommand (encodeRequest w (.encode node c)) (commandKind c) = c := by
  cases c with
  | setPositionFloat pos vel => cases vel <;> rfl
  | setStoredPosition pos store => cases store <;> rfl
  | _ => rfl

/-- The numbered fields of a request that fits them are read back as that request. -/
theorem physRequest_encodeRequest {w : Nat} (hw : 0 < w) {r : Request} (h : requestFits w r) :
    physRequest (encodeRequest w r) = .ok r := by
  cases r with
  | compose node typeId =>
    obtain ⟨hnode, htype⟩ := h
    calc physRequest (encodeRequest w (.compose node typeId))
        = .ok (.compose (sint (twos w node)) (sint (twos w typeId))) := physRequest_of_op_zero rfl
      _ = .ok (.compose node typeId) := by
        rw [sint_twos_of_fitsInt hw hnode, sint_twos_of_fitsInt hw htype]
  | decompose d => exact physRequest_of_op_one rfl
  | encode node c =>
    calc physRequest (encodeRequest w (.encode node c))
        = .ok (.encode (sint (twos w node))
            (physCommand (encodeRequest w (.encode node c)) (commandKind c))) :=
          physRequest_of_op_two rfl rfl
      _ = .ok (.encode node c) := by
        rw [sint_twos_of_fitsInt hw h, physCommand_encodeRequest]
  | decode d p => exact physRequest_of_op_three rfl

/-- A well-formed row is the row of the request it stands for. -/
theorem requestInstr_instrRequest {i : Instr} (h : i.wf = true) :
    requestInstr (instrRequest i) = i := by
  cases i with
  | status hi n p => exact Laws.RowRoundTrip.status hi n p h
  | status2 hi n p => exact Laws.RowRoundTrip.status2 hi n p h
  | status3 hi n p => exact Laws.RowRoundTrip.status3 hi n p h
  | status4 hi n p => exact Laws.RowRoundTrip.status4 hi n p h
  | status5 hi n p => exact Laws.RowRoundTrip.status5 hi n p h
  | status6 hi n p => exact Laws.RowRoundTrip.status6 hi n p h
  | noRecord hi t n p => exact Laws.RowRoundTrip.noRecord hi t n p h
  | _ => rfl

/-- Settles O6: the request of the instruction passes through its fields, and classification gives
the instruction back. -/
theorem decodeOfEncode : Obligations.DecodeOfEncode := by
  rintro P i hwf ⟨⟨hwidth, -⟩, hfits, -⟩
  have hphys : physRequest (encode P.reqIntWidth i) = .ok (instrRequest i) :=
    physRequest_encodeRequest (by omega) ((requestFits_instrRequest i).2 hfits)
  rw [decode_of_physRequest_ok hphys, requestInstr_instrRequest hwf]

/-! ### Response codes (R75) -/

/-- The codes of the table lie in 0 to 4 and in 8 to 11. -/
theorem responseCode_range (r : Response) :
    (responseCode r).toNat ≤ 4 ∨ 8 ≤ (responseCode r).toNat ∧ (responseCode r).toNat ≤ 11 := by
  cases r with
  | error kind info => cases kind <;> simp [responseCode, errorCode]
  | _ => simp [responseCode]

/-- Settles O11: each constructor has its code, and no code of the table is a reserved one. -/
theorem responseCodes : Obligations.ResponseCodes := by
  refine ⟨fun _ => rfl, fun _ _ => rfl, fun _ _ _ => rfl, fun _ => rfl, fun _ _ => rfl,
    fun _ => rfl, fun _ => rfl, fun _ => rfl, fun _ => rfl, fun r => ?_⟩
  have hrange := responseCode_range r
  simp only [List.mem_cons, List.not_mem_nil, or_false]
  omega

end Sys2Proof.Machine
end

section
/-!
PROOFS for `30_encoding.md` (R78): a decimal literal denotes the nearest binary64 value.
-/

namespace Sys2Proof.Machine

open Sys2Proof.Certificates

/-! ### Rounding to binary64 (R78) -/

/-- Twice the midpoint above the largest finite datum, `2^1024 - 2^970` as a real number. -/
theorem overflowTwice_binary64 :
    binary64.overflowTwice = 2 * ((2 ^ 1024 - 2 ^ 970) * 2 ^ binary64.unitExp) := by decide +kernel

theorem cast_two_pow_sub {a b : Nat} (h : b ≤ a) :
    ((2 ^ a - 2 ^ b : Nat) : Rat) = 2 ^ a - 2 ^ b := by
  rw [Nat.cast_sub (Nat.pow_le_pow_right two_pos h), Nat.cast_pow, Nat.cast_pow, Nat.cast_ofNat]

/-- A quotient of units rounds to a finite datum exactly below the midpoint. -/
theorem roundMag_binary64_lt_infMag_iff (num : Nat) {den : Nat} (hd : 0 < den) :
    binary64.roundMag num den < binary64.infMag ↔
      (num : Rat) / (den * 2 ^ binary64.unitExp) < 2 ^ 1024 - 2 ^ 970 := by
  rw [(binary64.roundMag_le num den).lt_iff_ne, ne_eq,
    binary64.roundMag_eq_infMag binary64_ok num den hd, overflowTwice_binary64,
    ← cast_two_pow_sub (by decide : 970 ≤ 1024), div_lt_iff₀ (by positivity), not_le]
  generalize 2 ^ 1024 - 2 ^ 970 = limit
  rw [show den * (2 * (limit * 2 ^ binary64.unitExp)) =
    2 * (limit * (den * 2 ^ binary64.unitExp)) by ring, Nat.mul_lt_mul_left (by omega)]
  exact_mod_cast Iff.rfl

/-- The distance of a signed quotient of units from a datum, as an integer over the denominator. -/
theorem abs_sub_f64Value (neg : Bool) (num : Nat) {den : Nat} (hd : 0 < den) (z : F64) :
    |(signFactor neg : Rat) * (num / (den * 2 ^ binary64.unitExp)) - f64Value z| =
      (|signFactor neg * num - den * (signFactor (f64Neg z) * f64Units z)| : Int) /
        (den * 2 ^ binary64.unitExp : Rat) := by
  have hpos : (0 : Rat) < den * 2 ^ binary64.unitExp := by positivity
  rw [f64Value_eq, Int.cast_abs, ← abs_of_pos hpos, ← abs_div, abs_of_pos hpos]
  congr 1
  push_cast
  field_simp

/-- `roundMag` under a sign is the nearest datum to the signed quotient of units, ties to even. -/
theorem f64Make_roundMag_isNearest (neg : Bool) (num : Nat) {den : Nat} (hd : 0 < den)
    (hlt : (num : Rat) / (den * 2 ^ binary64.unitExp) < 2 ^ 1024 - 2 ^ 970) :
    IsNearest64 (signFactor neg * (num / (den * 2 ^ binary64.unitExp)))
      (f64Make neg (binary64.roundMag num den)) := by
  have hfin := (roundMag_binary64_lt_infMag_iff num hd).2 hlt
  have hbound : binary64.roundMag num den < 2 ^ 63 := by
    have := infMag_binary64
    omega
  obtain ⟨hmag, hneg⟩ := f64Make_parts neg _ hbound
  refine ⟨(isFinite_iff_mag _).2 (by rwa [hmag]), fun z _ => ?_⟩
  obtain ⟨hnear, htie⟩ :=
    binary64.roundMag_signed_nearest binary64_ok num den hd hfin neg (f64Neg z) (f64Mag z)
  have hpos : (0 : Rat) < den * 2 ^ binary64.unitExp := by positivity
  rw [abs_sub_f64Value neg num hd, abs_sub_f64Value neg num hd, div_le_div_iff_of_pos_right hpos,
    div_left_inj' hpos.ne', Int.cast_le, Int.cast_inj, f64Value_eq z, f64Value_eq (f64Make _ _),
    hneg, f64Units, f64Units, hmag]
  refine ⟨hnear, fun heq => (htie heq).imp (fun hsame => by rw [hsame]) fun heven => ?_⟩
  rw [← hmag, f64Mag] at heven
  omega

/-- `f64Nearest` is the nearest datum to the signed quotient, ties to even. -/
theorem f64Nearest_isNearest (neg : Bool) (num : Nat) {den : Nat} (hd : 0 < den)
    (hlt : (num : Rat) / den < 2 ^ 1024 - 2 ^ 970) :
    IsNearest64 (signFactor neg * (num / den)) (f64Nearest neg num den) := by
  have hunits : ((num * 2 ^ binary64.unitExp : Nat) : Rat) / (den * 2 ^ binary64.unitExp) =
      num / den := by
    rw [Nat.cast_mul, Nat.cast_pow, Nat.cast_ofNat]
    exact mul_div_mul_right _ _ (by positivity)
  have hnear := f64Make_roundMag_isNearest neg (num * 2 ^ binary64.unitExp) hd (by rwa [hunits])
  rwa [hunits] at hnear

/-! ### Decimal literals (R78) -/

/-- The two powers a literal is made of are the one power of its exponent. -/
theorem decimal_quotient (digits : Nat) (exp10 : Int) :
    ((digits * 10 ^ exp10.toNat : Nat) : Rat) / (10 ^ (-exp10).toNat : Nat) =
      digits * 10 ^ exp10 := by
  calc ((digits * 10 ^ exp10.toNat : Nat) : Rat) / (10 ^ (-exp10).toNat : Nat)
      = digits * ((10 : Rat) ^ (exp10.toNat : Int) / 10 ^ ((-exp10).toNat : Int)) := by
        push_cast [zpow_natCast]
        ring
    _ = digits * 10 ^ exp10 := by
        rw [← zpow_sub₀ (by norm_num), Int.toNat_sub_toNat_neg]

theorem signFactor_cast (neg : Bool) : (signFactor neg : Rat) = if neg then -1 else 1 := by
  cases neg <;> rfl

/-- Settles O12: the literal is the signed quotient that `f64Nearest` rounds. -/
theorem decimalLiteralIsNearest : Obligations.DecimalLiteralIsNearest := by
  intro neg digits exp10 hlt
  have hbelow := (le_abs_self _).trans_lt hlt
  rw [← decimal_quotient] at hbelow ⊢
  rw [← signFactor_cast]
  exact f64Nearest_isNearest neg _ (by positivity) hbelow

end Sys2Proof.Machine
end

section
/-!
PROOFS for `30_encoding.md` (R61, R67, R70) and the rules that say what a response may hold: every
response a step delivers is legal.
-/

namespace Sys2Proof.Machine

open Sys2Proof.Certificates

/-! ### Legality of a response (R61, R67, R70, R163, R206) -/

/-- A payload under construction has a length its command allows, or has raised a legal error. -/
def bodyLegal (k : CommandKind) : Result Memory → Prop
  | .ok m => legalTxLen k (payloadBytes m).length
  | .error e => legalError e.kind e.info

theorem typeId_of_ident29 (t n : Byte) : (ident29 t n).extractLsb' 8 8 = t := by
  apply BitVec.eq_of_toNat_eq
  rw [BitVec.extractLsb'_toNat, ident29_toNat, Nat.shiftRight_eq_div_pow]
  omega

theorem ident29_lt (t n : Byte) : (ident29 t n).toNat < 65536 := by
  rw [ident29_toNat]
  omega

/-- The RangeError of an operand that fails its check is legal. -/
theorem legalError_range {n : Int} (operand : RangeOperand) (h : ¬ (0 ≤ n ∧ n ≤ 255)) :
    legalError .rangeError (.rangeInfo operand n) := by
  change n < 0 ∨ 255 < n
  omega

theorem legalFrame_ident29 {k : CommandKind} {payload : List Byte} (n : Byte)
    (h : legalTxLen k payload.length) :
    legalFrame (ident29 (commandTypeId k) n) extendedFormat payload := by
  refine ⟨ident29_lt _ n, rfl, ?_⟩
  rwa [typeId_of_ident29, commandKindOf_commandTypeId]

theorem encodeFrame_legal (node : Int) {k : CommandKind} {body : Result Memory}
    (h : bodyLegal k body) : (resultResponse (encodeFrame node k body)).legal := by
  rcases encodeFrame_cases node k body with ⟨hnode, hc⟩ | ⟨-, -, e, rfl, hc⟩ | ⟨-, -, m, rfl, hc⟩
  · rw [hc]
    exact legalError_range .node hnode
  · rw [hc]
    exact h
  · rw [hc]
    exact legalFrame_ident29 _ h

theorem compose_legal (node typeId : Int) :
    (resultResponse ((composeIdent node typeId).map Response.ident)).legal := by
  rcases composeIdent_cases node typeId with ⟨hnode, hc⟩ | ⟨-, htype, hc⟩ | ⟨-, -, hc⟩
  · rw [hc]
    exact legalError_range .node hnode
  · rw [hc]
    exact legalError_range .typeId htype
  · rw [hc]
    exact ident29_lt _ _

/-! ### Legality of the payloads (R68, R70) -/

theorem scaledInt32_eq_raise_or_ok (x : F64) (F : Nat) (field : ParamField) :
    scaledInt32 x F field = raiseValue field ∨ ∃ v, scaledInt32 x F field = .ok v := by
  rcases scaledInt32_cases x F field with ⟨-, h⟩ | ⟨-, -, -, -, -, h⟩
  · exact .inl h
  · exact .inr ⟨_, h⟩

theorem float32_eq_raise_or_ok (x : F64) (field : ParamField) :
    float32 x field = raiseValue field ∨ ∃ y, float32 x field = .ok y := by
  rcases float32_cases x field with ⟨-, h⟩ | ⟨-, -, -, h⟩ | ⟨-, -, h⟩
  · exact .inr ⟨_, h⟩
  · exact .inl h
  · exact .inr ⟨_, h⟩

theorem bodyLegal_raiseValue (k : CommandKind) (field : ParamField) :
    bodyLegal k (raiseValue field) := trivial

theorem bodyI32_legal {k : CommandKind} (hk : legalTxLen k 4) (x : F64) (F : Nat)
    (field : ParamField) : bodyLegal k (bodyI32 (scaledInt32 x F field)) := by
  rcases scaledInt32_eq_raise_or_ok x F field with h | ⟨v, h⟩
  · rw [h]
    exact bodyLegal_raiseValue k field
  · rw [h]
    exact hk

theorem bodyF32_legal {k : CommandKind} (hk : legalTxLen k 4) (x : F64) (field : ParamField) :
    bodyLegal k (bodyF32 (float32 x field)) := by
  rcases float32_eq_raise_or_ok x field with h | ⟨y, h⟩
  · rw [h]
    exact bodyLegal_raiseValue k field
  · rw [h]
    exact hk

/-- Four bytes without a positive velocity, eight with one (R123). -/
theorem bodyPositionFloat_legal (pos : F64) (vel : Option F64) :
    bodyLegal .setPositionFloat (bodyPositionFloat pos vel) := by
  unfold bodyPositionFloat
  rcases float32_eq_raise_or_ok pos .pos with hpos | ⟨y, hpos⟩
  · rw [hpos]
    exact bodyLegal_raiseValue _ .pos
  · rw [hpos]
    cases positiveVelocity vel with
    | none => exact .inl rfl
    | some v =>
      rcases float32_eq_raise_or_ok v .vel with hvel | ⟨z, hvel⟩
      · simp only [hvel]
        exact bodyLegal_raiseValue _ .vel
      · simp only [hvel]
        exact .inr rfl

theorem bodyStoredPosition_legal (pos : F64) (store : Bool) :
    bodyLegal .setStoredPosition (bodyStoredPosition pos store) := by
  unfold bodyStoredPosition
  rcases float32_eq_raise_or_ok pos .pos with h | ⟨y, h⟩
  · rw [h]
    exact bodyLegal_raiseValue _ .pos
  · rw [h]
    rfl

/-! ### Legality of the records (R151 to R153, R163) -/

/-- A scaled field of whole bytes is in the signed range of its width. -/
theorem scale_legal (p : List Byte) (off d : Nat) {W : Nat} (hW : 8 * (W / 8) = W) :
    (scale p off W d).legal W d := by
  obtain ⟨hlo, hhi⟩ := sint_range (memRead p off (W / 8))
  have hpow : (2 : Int) ^ (8 * (W / 8) - 1) = 2 ^ (W - 1) := by rw [hW]
  rw [hpow] at hlo hhi
  exact ⟨rfl, hlo, Int.lt_of_le_sub_one hhi, rfl⟩

theorem decodeRecord_legal (k : StatusKind) (p : List Byte) {layout : TelemetryRecord}
    (h : layout.legal) : (resultResponse (decodeRecord k p layout)).legal := by
  rcases decodeRecord_cases k p layout with ⟨hshort, hc⟩ | ⟨-, hc⟩
  · rw [hc]
    refine ⟨hshort, ?_⟩
    rw [statusKindOf_statusTypeId]
  · rw [hc]
    exact h

/-! ### Legality of what a step delivers -/

theorem delivers_legal_of_body {i : Instr} {node : Int} {k : CommandKind} {body : Result Memory}
    (hexec : ∀ s, exec i s = answer (encodeFrame node k body) s) (hbody : bodyLegal k body) :
    ∃ r : Response, r.legal ∧ ∀ s, exec i s = .next (deliver r s) :=
  ⟨_, encodeFrame_legal node hbody, hexec⟩

theorem delivers_legal_of_layout {i : Instr} {k : StatusKind} {p : List Byte}
    {layout : TelemetryRecord} (hexec : ∀ s, exec i s = answer (decodeRecord k p layout) s)
    (hlayout : layout.legal) : ∃ r : Response, r.legal ∧ ∀ s, exec i s = .next (deliver r s) :=
  ⟨_, decodeRecord_legal k p hlayout, hexec⟩

/-- A well-formed instruction delivers one response, and a legal one. -/
theorem exec_delivers_legal {i : Instr} (hwf : i.wf = true) :
    ∃ r : Response, r.legal ∧ ∀ s, exec i s = .next (deliver r s) := by
  have h16 (p : List Byte) (off d : Nat) : (scale p off 16 d).legal 16 d := scale_legal p off d rfl
  have h32 (p : List Byte) (off d : Nat) : (scale p off 32 d).legal 32 d := scale_legal p off d rfl
  cases i with
  | compose node typeId => exact ⟨_, compose_legal node typeId, fun _ => rfl⟩
  | decompose d => exact ⟨_, trivial, fun _ => rfl⟩
  | setCurrent node x => exact delivers_legal_of_body (fun _ => rfl) (bodyI32_legal rfl x _ _)
  | setRpm node x => exact delivers_legal_of_body (fun _ => rfl) (bodyI32_legal rfl x _ _)
  | setPosition node x => exact delivers_legal_of_body (fun _ => rfl) (bodyI32_legal rfl x _ _)
  | setKp node x => exact delivers_legal_of_body (fun _ => rfl) (bodyF32_legal rfl x _)
  | setKi node x => exact delivers_legal_of_body (fun _ => rfl) (bodyF32_legal rfl x _)
  | setKd node x => exact delivers_legal_of_body (fun _ => rfl) (bodyF32_legal rfl x _)
  | setPositionFloat node x v =>
    exact delivers_legal_of_body (fun _ => rfl) (bodyPositionFloat_legal x v)
  | setVelocity node x => exact delivers_legal_of_body (fun _ => rfl) (bodyF32_legal rfl x _)
  | setAcceleration node x => exact delivers_legal_of_body (fun _ => rfl) (bodyF32_legal rfl x _)
  | setDeceleration node x => exact delivers_legal_of_body (fun _ => rfl) (bodyF32_legal rfl x _)
  | setStoredPosition node x b =>
    exact delivers_legal_of_body (fun _ => rfl) (bodyStoredPosition_legal x b)
  | status hi n p => exact delivers_legal_of_layout (fun _ => rfl) ⟨h32 p _ _, h16 p _ _, h16 p _ _⟩
  | status2 hi n p => exact delivers_legal_of_layout (fun _ => rfl) ⟨h32 p _ _, h32 p _ _⟩
  | status3 hi n p => exact delivers_legal_of_layout (fun _ => rfl) ⟨h32 p _ _, h32 p _ _⟩
  | status4 hi n p =>
    exact delivers_legal_of_layout (fun _ => rfl) ⟨h16 p _ _, h16 p _ _, h16 p _ _, h16 p _ _⟩
  | status5 hi n p => exact delivers_legal_of_layout (fun _ => rfl) ⟨h32 p _ _, h16 p _ _⟩
  | status6 hi n p =>
    exact delivers_legal_of_layout (fun _ => rfl) ⟨h16 p _ _, h16 p _ _, h16 p _ _, h16 p _ _⟩
  | noRecord hi t n p =>
    have hnone : statusKindOf t = none := by simpa [Instr.wf] using hwf
    exact ⟨.noRecord n t, hnone, fun _ => rfl⟩

/-- The state `t` has the responses of `s`, or those and a legal one after them. -/
def deliversLegally (s t : State) : Prop :=
  t.responses = s.responses ∨ ∃ a : Response, a.legal ∧ t.responses = s.responses ++ [a]

theorem takeInput_deliversLegally (e : Input) (s : State) : deliversLegally s (takeInput e s) := by
  rcases takeInput_cases e s with ⟨r, h⟩ | ⟨w, p, k, -, hp, h⟩ | ⟨-, h⟩ | ⟨-, h⟩
  · exact .inl (by rw [h, accept_responses])
  · obtain ⟨⟨-, hkind⟩, rfl⟩ := physRequest_eq_error_iff.1 hp
    have hlegal : (illegalResponse p.kind).legal := commandKindOf_eq_none_iff.2 hkind
    exact .inr ⟨_, hlegal, by rw [h, deliver_responses]⟩
  · exact .inl (by rw [h, takeReset_responses])
  · exact .inl (by rw [h])

theorem takeNextInput_deliversLegally (s : State) : deliversLegally s (takeNextInput s) := by
  cases h : s.inputs with
  | nil => exact .inl (by rw [takeNextInput_nil h])
  | cons e rest =>
    rw [takeNextInput_cons h]
    exact takeInput_deliversLegally e { s with inputs := rest }

/-- A step delivers nothing or one legal response, from any state. -/
theorem step_deliversLegally {s t : State} (h : step s = .next t) : deliversLegally s t := by
  rcases step_cases s with ⟨rest, -, hs⟩ | ⟨-, r, -, hs⟩ | ⟨-, -, hs⟩
  · cases hs.symm.trans h
    exact .inl rfl
  · obtain ⟨a, ha, hexec⟩ := exec_delivers_legal (requestInstr_wf r)
    cases (hs.trans (hexec s)).symm.trans h
    exact .inr ⟨a, ha, deliver_responses a s⟩
  · cases hs.symm.trans h
    exact takeNextInput_deliversLegally s

/-- Settles O48: the responses after a step are those before it and at most one more, a legal
one. -/
theorem stepKeepsResponsesLegal : Obligations.StepKeepsResponsesLegal := by
  intro s t hlegal hstep r hr
  rcases step_deliversLegally hstep with h | ⟨a, ha, h⟩
  · exact hlegal r (h ▸ hr)
  · rw [h, List.mem_append, List.mem_singleton] at hr
    rcases hr with hr | rfl
    · exact hlegal r hr
    · exact ha

end Sys2Proof.Machine
end

section
/-!
PROOFS for `40_identifier.md` (R100 to R102): COMPOSE, DECOMPOSE, and that they undo each other.
-/

namespace Sys2Proof.Machine

open Sys2Proof.Certificates

/-! ### The identifier from its fields, and the fields from the identifier (R60, R62) -/

@[simp] theorem twos_toNat (b : Byte) : twos 8 (b.toNat : Int) = b := by
  rw [twos_eq_ofInt, BitVec.ofInt_natCast, BitVec.ofNat_toNat, BitVec.setWidth_eq]

theorem isByte_toNat (b : Byte) : isByte (b.toNat : Int) :=
  ⟨Int.natCast_nonneg _, Int.lt_add_one_iff.1 (Int.ofNat_lt.2 b.isLt)⟩

/-- The conversion to a byte keeps the value of an operand that passes the range check. -/
theorem toNat_twos_of_isByte {n : Int} (h : isByte n) : ((twos 8 n).toNat : Int) = n := by
  obtain ⟨hlo, hhi⟩ := h
  rw [twos_eq_ofInt, BitVec.toNat_ofInt]
  omega

/-- R60's concatenation of two operands in range is R100's sum. -/
theorem ident29_twos_of_isByte {node typeId : Int} (hnode : isByte node) (htype : isByte typeId) :
    ident29 (twos 8 typeId) (twos 8 node) = BitVec.ofInt 29 (node + 256 * typeId) := by
  have hsum : node + 256 * typeId = ((ident29 (twos 8 typeId) (twos 8 node)).toNat : Int) := by
    rw [ident29_toNat, Nat.cast_add, Nat.cast_mul, toNat_twos_of_isByte hnode,
      toNat_twos_of_isByte htype, Nat.cast_ofNat]
  rw [hsum, BitVec.ofInt_natCast, BitVec.ofNat_toNat, BitVec.setWidth_eq]

/-- Zero-extended, an output identifier is the decode-side one with the same fields. -/
theorem ident29_setWidth (t n : Byte) : (ident29 t n).setWidth 32 = ident32 0 t n := by
  apply BitVec.eq_of_toNat_eq
  rw [BitVec.toNat_setWidth, ident29_toNat, ident32_toNat, BitVec.ofNat_eq_ofNat,
    BitVec.toNat_zero]
  omega

/-- Bits 28:0 of a decode-side identifier without high bits are the output one. -/
theorem ident32_zero_setWidth (t n : Byte) : (ident32 0 t n).setWidth 29 = ident29 t n := by
  rw [← ident29_setWidth, BitVec.setWidth_setWidth_of_le _ (by decide), BitVec.setWidth_eq]

theorem eq_ident32_zero_of_lt {d : Ident32} (h : d.toNat < 65536) :
    d = ident32 0 (typeIdField d) (nodeField d) := by
  have hhigh : ignoredField d = 0 := by
    rw [ignoredField_eq_ofNat, Nat.div_eq_of_lt h]
    rfl
  calc d = ident32 (ignoredField d) (typeIdField d) (nodeField d) := (ident32_of_fields d).symm
    _ = ident32 0 (typeIdField d) (nodeField d) := by rw [hhigh]

/-! ### COMPOSE (R100) -/

theorem exec_compose_of_ok {node typeId : Int} {i : Ident29}
    (h : composeIdent node typeId = .ok i) (s : State) :
    exec (.compose node typeId) s = .next (afterResponse s (.ident i)) := by
  rw [exec, execCompose, h]
  rfl

theorem exec_compose_of_raiseRange {node typeId value : Int} {operand : RangeOperand}
    (h : composeIdent node typeId = raiseRange operand value) (s : State) :
    exec (.compose node typeId) s =
      .next (afterResponse s (.error .rangeError (.rangeInfo operand value))) := by
  rw [exec, execCompose, h]
  rfl

/-- Settles O13: the three cases of the COMPOSE computation are the three clauses. -/
theorem composeGivesIdentifierOrRangeError : Obligations.ComposeGivesIdentifierOrRangeError := by
  intro node typeId s
  rcases composeIdent_cases node typeId with
    ⟨hnode, h⟩ | ⟨hnode, htype, h⟩ | ⟨hnode, htype, h⟩
  · exact ⟨fun hn => absurd hn hnode, fun _ => exec_compose_of_raiseRange h s,
      fun hn => absurd hn hnode⟩
  · exact ⟨fun _ ht => absurd ht htype, fun hn => absurd hnode hn,
      fun _ _ => exec_compose_of_raiseRange h s⟩
  · rw [ident29_twos_of_isByte hnode htype] at h
    exact ⟨fun _ _ => exec_compose_of_ok h s, fun hn => absurd hnode hn,
      fun _ ht => absurd htype ht⟩

/-- Operands in range are answered with the identifier that has them as its fields. -/
theorem exec_compose_of_isByte {node typeId : Int} (hnode : isByte node) (htype : isByte typeId)
    (s : State) : exec (.compose node typeId) s =
      .next (afterResponse s (.ident (ident29 (twos 8 typeId) (twos 8 node)))) := by
  rw [ident29_twos_of_isByte hnode htype]
  exact (composeGivesIdentifierOrRangeError node typeId s).1 hnode htype

/-- COMPOSE of any two bytes is the identifier with them as its fields. -/
theorem exec_compose_toNat (n t : Byte) (s : State) :
    exec (.compose n.toNat t.toNat) s = .next (afterResponse s (.ident (ident29 t n))) := by
  rw [exec_compose_of_isByte (isByte_toNat n) (isByte_toNat t), twos_toNat, twos_toNat]

/-! ### DECOMPOSE (R101) -/

theorem exec_decompose (d : Ident32) (s : State) : exec (.decompose d) s =
    .next (afterResponse s (.fields (nodeField d) (typeIdField d))) := rfl

/-- Settles O14: the two fields are remainders of the identifier's value. -/
theorem decomposeGivesFields : Obligations.DecomposeGivesFields := by
  intro d s
  rw [exec_decompose, nodeField_eq_ofNat, typeIdField_eq_ofNat]

/-- DECOMPOSE gives the fields an identifier was built from, whatever its high bits. -/
theorem exec_decompose_ident32 (hi : BitVec 16) (t n : Byte) (s : State) :
    exec (.decompose (ident32 hi t n)) s = .next (afterResponse s (.fields n t)) := by
  obtain ⟨-, htype, hnode⟩ := fields_ident32 hi t n
  rw [exec_decompose, htype, hnode]

/-! ### The round trip (R102) -/

/-- Settles O15: both directions go through the identifier with zero high bits and the two
fields. -/
theorem composeDecomposeRoundTrip : Obligations.ComposeDecomposeRoundTrip := by
  constructor
  · intro node typeId s hnode htype
    refine ⟨_, exec_compose_of_isByte hnode htype s, ?_⟩
    rw [ident29_setWidth, exec_decompose_ident32, twos_eq_ofInt, twos_eq_ofInt]
  · intro d s hlow
    refine ⟨nodeField d, typeIdField d, exec_decompose d s, ?_⟩
    rw [exec_compose_toNat, ← ident32_zero_setWidth, ← eq_ident32_zero_of_lt hlow]

end Sys2Proof.Machine
end

section
/-!
PROOFS for `41_command_encoder.md` (R103, R115 to R128): what an ENCODE answers, one lemma per
outcome of its computation, and from these the eleven commands and their identifiers.
-/

namespace Sys2Proof.Machine

open Sys2Proof.Certificates

/-! ### The outcomes of an ENCODE (R103, R115, R207) -/

theorem answer_encodeFrame_of_not_isByte {node : Int} (h : ¬ isByte node) (k : CommandKind)
    (body : Result Memory) (s : State) :
    answer (encodeFrame node k body) s = .next (afterResponse s (nodeError node)) := by
  rcases encodeFrame_cases node k body with ⟨-, hc⟩ | ⟨hlo, hhi, -⟩ | ⟨hlo, hhi, -⟩
  · rw [hc]
    rfl
  · exact absurd ⟨hlo, hhi⟩ h
  · exact absurd ⟨hlo, hhi⟩ h

theorem answer_encodeFrame_raiseValue {node : Int} (h : isByte node) (k : CommandKind)
    (field : ParamField) (s : State) :
    answer (encodeFrame node k (raiseValue field)) s =
      .next (afterResponse s (valueError field)) := by
  rcases encodeFrame_cases node k (raiseValue field) with
    ⟨hn, -⟩ | ⟨-, -, e, he, hc⟩ | ⟨-, -, m, hm, -⟩
  · exact absurd h hn
  · rw [hc, ← Except.error.inj he]
    rfl
  · exact absurd hm nofun

/-- The identifier of a frame is `node + 256 * type_id` (R60, R63). -/
theorem ident29_commandTypeId {node : Int} (h : isByte node) (k : CommandKind) :
    ident29 (commandTypeId k) (twos 8 node) =
      BitVec.ofInt 29 (node + 256 * (commandTypeId k).toNat) := by
  rw [← ident29_twos_of_isByte h (isByte_toNat _), twos_toNat]

theorem answer_encodeFrame_ok {node : Int} (h : isByte node) (k : CommandKind) (m : Memory)
    (s : State) : answer (encodeFrame node k (.ok m)) s =
      .next (afterResponse s (frameTo node (commandTypeId k).toNat (payloadBytes m))) := by
  rcases encodeFrame_cases node k (.ok m) with ⟨hn, -⟩ | ⟨-, -, e, he, -⟩ | ⟨-, -, m', hm, hc⟩
  · exact absurd h hn
  · exact absurd he nofun
  · rw [hc, ← Except.ok.inj hm, ident29_commandTypeId h]
    rfl

/-! ### Identifiers of different commands (R128) -/

/-- The row of a command runs ENCODE under the command's own kind. -/
theorem exec_encodeInstr_eq_answer (node : Int) (c : Command) : ∃ body : Result Memory,
    ∀ s, exec (encodeInstr node c) s = answer (encodeFrame node (commandKind c) body) s := by
  cases c <;> exact ⟨_, fun _ => rfl⟩

/-- Only a node in range is answered with a frame, and the identifier is built from that node and
the kind. -/
theorem isByte_and_ident_of_frame {node : Int} {k : CommandKind} {body : Result Memory}
    {d : Ident29} {e : Bool} {p : List Byte}
    (h : resultResponse (encodeFrame node k body) = .frame d e p) :
    isByte node ∧ d = ident29 (commandTypeId k) (twos 8 node) := by
  rcases encodeFrame_cases node k body with ⟨-, hc⟩ | ⟨-, -, err, -, hc⟩ | ⟨hlo, hhi, m, -, hc⟩
  · rw [hc] at h
    exact absurd h nofun
  · rw [hc] at h
    exact absurd h nofun
  · rw [hc] at h
    exact ⟨⟨hlo, hhi⟩, (Response.frame.inj h).1.symm⟩

/-- A command that delivers a frame has a node in range, and the frame's identifier is built from
that node and the command's kind. -/
theorem ident_of_exec_encodeInstr {node : Int} {c : Command} {s t : State} {d : Ident29} {e : Bool}
    {p : List Byte} (hexec : exec (encodeInstr node c) s = .next t)
    (hframe : t.responses = s.responses ++ [.frame d e p]) :
    isByte node ∧ d = ident29 (commandTypeId (commandKind c)) (twos 8 node) := by
  obtain ⟨body, hbody⟩ := exec_encodeInstr_eq_answer node c
  rw [hbody, answer_eq] at hexec
  rw [← Host.Outcome.next.inj hexec, deliver_responses] at hframe
  exact isByte_and_ident_of_frame (List.singleton_inj.1 (List.append_cancel_left hframe))

theorem ident29_inj {t n t' n' : Byte} (h : ident29 t n = ident29 t' n') : t = t' ∧ n = n' := by
  have hnat := congrArg BitVec.toNat h
  rw [ident29_toNat, ident29_toNat] at hnat
  exact ⟨BitVec.eq_of_toNat_eq (by omega), BitVec.eq_of_toNat_eq (by omega)⟩

theorem commandTypeId_injective : Function.Injective commandTypeId := fun k k' h =>
  Option.some.inj (by rw [← commandKindOf_commandTypeId, h, commandKindOf_commandTypeId])

/-- Settles O10: an identifier determines its two bytes, and these the node and the kind. -/
theorem frameIdentifiersAreInjective : Obligations.FrameIdentifiersAreInjective := by
  intro n n' c c' s s' t t' d e e' p p' hexec hframe hexec' hframe'
  obtain ⟨hn, hd⟩ := ident_of_exec_encodeInstr hexec hframe
  obtain ⟨hn', hd'⟩ := ident_of_exec_encodeInstr hexec' hframe'
  obtain ⟨htype, hnode⟩ := ident29_inj (hd.symm.trans hd')
  refine ⟨?_, commandTypeId_injective htype⟩
  rw [← toNat_twos_of_isByte hn, hnode, toNat_twos_of_isByte hn']

/-! ### The scaled-int32 commands (R111, R112, R117 to R119) -/

theorem scaledInt32_of_isInt32 {x : F64} {F : Nat} (hx : isFinite x) (hp : isFinite (mul64 x F))
    (hn : isInt32 (trunc (mul64 x F))) (field : ParamField) :
    scaledInt32 x F field = .ok (BitVec.ofInt 32 (trunc (mul64 x F))) := by
  obtain ⟨hxnan, hxinf⟩ := (isFinite_iff x).1 hx
  obtain ⟨-, hpinf⟩ := (isFinite_iff _).1 hp
  rw [← twos_eq_ofInt]
  rcases scaledInt32_cases x F field with ⟨hraise, -⟩ | ⟨-, -, -, -, -, h⟩
  · simp only [hxnan, hxinf, hpinf, Bool.false_eq_true, false_or] at hraise
    omega
  · exact h

theorem scaledInt32_eq_raiseValue {x : F64} {F : Nat}
    (h : isNaN x ∨ isInf x ∨ isInf (mul64 x F) ∨
      isFinite x ∧ isFinite (mul64 x F) ∧ ¬ isInt32 (trunc (mul64 x F))) (field : ParamField) :
    scaledInt32 x F field = raiseValue field := by
  rcases scaledInt32_cases x F field with ⟨-, hraise⟩ | ⟨hxnan, hxinf, hpinf, hlo, hhi, -⟩
  · exact hraise
  · simp only [hxnan, hxinf, hpinf, Bool.false_eq_true, false_or] at h
    obtain ⟨-, -, hn⟩ := h
    omega

/-- Every row that answers with a scaled int32 under a kind behaves as R117 to R119 say. -/
theorem scaledCommand_of_exec {mk : Int → F64 → Instr} {k : CommandKind} {F : Nat}
    {field : ParamField}
    (hexec : ∀ node x s,
      exec (mk node x) s = answer (encodeFrame node k (bodyI32 (scaledInt32 x F field))) s) :
    ScaledCommand mk (commandTypeId k).toNat F field := by
  intro node x s
  rw [hexec]
  refine ⟨fun hnode => ?_, fun hnode hx hp hn => ?_, fun hnode hbad => ?_⟩
  · exact answer_encodeFrame_of_not_isByte hnode k _ s
  · rw [scaledInt32_of_isInt32 hx hp hn]
    exact answer_encodeFrame_ok hnode k _ s
  · rw [scaledInt32_eq_raiseValue hbad]
    exact answer_encodeFrame_raiseValue hnode k field s

/-- Settles O16. -/
theorem setCurrentBehaviour : Obligations.SetCurrentBehaviour :=
  scaledCommand_of_exec (k := .setCurrent) fun _ _ _ => rfl

/-- Settles O17: RawInt32 is ScaledInt32 with factor 1 (R112). -/
theorem setRpmBehaviour : Obligations.SetRpmBehaviour :=
  scaledCommand_of_exec (k := .setRpm) fun _ _ _ => rfl

/-- Settles O18. -/
theorem setPositionBehaviour : Obligations.SetPositionBehaviour :=
  scaledCommand_of_exec (k := .setPosition) fun _ _ _ => rfl

/-! ### The commands with one binary32 parameter (R113, R120 to R122, R124 to R126) -/

theorem float32_of_overflows32 {x : F64} (h : overflows32 x) (field : ParamField) :
    float32 x field = raiseValue field := by
  obtain ⟨hx, hinf⟩ := h
  obtain ⟨hxnan, -⟩ := (isFinite_iff x).1 hx
  rcases float32_cases x field with ⟨hnan, -⟩ | ⟨-, -, -, hraise⟩ | ⟨-, hno, -⟩
  · exact absurd hnan (by simp [hxnan])
  · exact hraise
  · exact absurd ⟨hinf, hx⟩ hno

theorem float32_of_not_overflows32 {x : F64} (h : ¬ overflows32 x) (field : ParamField) :
    float32 x field = .ok (float32Bits x) := by
  rcases float32_cases x field with ⟨hnan, hok⟩ | ⟨-, hinf, hx, -⟩ | ⟨hnan, -, hok⟩
  · rw [hok, float32Bits, if_pos hnan]
    rfl
  · exact absurd ⟨hx, hinf⟩ h
  · rw [hok, float32Bits, if_neg (by simp [hnan])]

/-- Every row that answers with a binary32 datum under a kind behaves as R120 to R126 say. -/
theorem floatCommand_of_exec {mk : Int → F64 → Instr} {k : CommandKind} {field : ParamField}
    (hexec : ∀ node x s,
      exec (mk node x) s = answer (encodeFrame node k (bodyF32 (float32 x field))) s) :
    FloatCommand mk (commandTypeId k).toNat field := by
  intro node x s
  rw [hexec]
  refine ⟨fun hnode => ?_, fun hnode hfits => ?_, fun hnode hover => ?_⟩
  · exact answer_encodeFrame_of_not_isByte hnode k _ s
  · rw [float32_of_not_overflows32 hfits]
    exact answer_encodeFrame_ok hnode k _ s
  · rw [float32_of_overflows32 hover]
    exact answer_encodeFrame_raiseValue hnode k field s

/-- Settles O19. -/
theorem gainCommandsBehaviour : Obligations.GainCommandsBehaviour :=
  ⟨floatCommand_of_exec (k := .setKp) fun _ _ _ => rfl,
    floatCommand_of_exec (k := .setKi) fun _ _ _ => rfl,
    floatCommand_of_exec (k := .setKd) fun _ _ _ => rfl⟩

/-- Settles O20. -/
theorem motionCommandsBehaviour : Obligations.MotionCommandsBehaviour :=
  ⟨floatCommand_of_exec (k := .setVelocity) fun _ _ _ => rfl,
    floatCommand_of_exec (k := .setAcceleration) fun _ _ _ => rfl,
    floatCommand_of_exec (k := .setDeceleration) fun _ _ _ => rfl⟩

/-! ### SetStoredPosition (R127) -/

theorem exec_setStoredPosition (node : Int) (pos : F64) (store : Bool) (s : State) :
    exec (.setStoredPosition node pos store) s =
      answer (encodeFrame node .setStoredPosition (bodyStoredPosition pos store)) s := rfl

theorem bodyStoredPosition_of_overflows32 {pos : F64} (h : overflows32 pos) (store : Bool) :
    bodyStoredPosition pos store = raiseValue .pos := by
  rw [bodyStoredPosition, float32_of_overflows32 h]
  rfl

theorem bodyStoredPosition_of_not_overflows32 {pos : F64} (h : ¬ overflows32 pos) (store : Bool) :
    bodyStoredPosition pos store =
      .ok (memWrite (memWrite [] 0 4 (float32Bits pos)) 4 1 (storeByte store)) := by
  rw [bodyStoredPosition, float32_of_not_overflows32 h]
  rfl

theorem payloadBytes_stored (v : BitVec 32) (store : Bool) :
    payloadBytes (memWrite (memWrite [] 0 4 v) 4 1 (storeByte store)) =
      bytesOf32 v ++ [if store then 1#8 else 0#8] := by
  rw [payloadBytes_word_byte]
  cases store <;> rfl

/-- Settles O22: the position is converted first, and the flag cannot fail. -/
theorem setStoredPositionBehaviour : Obligations.SetStoredPositionBehaviour := by
  intro node pos store s
  rw [exec_setStoredPosition]
  refine ⟨fun hnode => ?_, fun hnode hfits => ?_, fun hnode hover => ?_⟩
  · exact answer_encodeFrame_of_not_isByte hnode _ _ s
  · rw [bodyStoredPosition_of_not_overflows32 hfits, answer_encodeFrame_ok hnode,
      payloadBytes_stored]
    rfl
  · rw [bodyStoredPosition_of_overflows32 hover]
    exact answer_encodeFrame_raiseValue hnode _ _ s

/-! ### SetPositionFloat (R123) -/

theorem FloatFormat.units_zero (fmt : FloatFormat) : fmt.units 0 = 0 := by
  simp [FloatFormat.units]

theorem f64Value_pos_iff (x : F64) : 0 < f64Value x ↔ f64Neg x = false ∧ f64Mag x ≠ 0 := by
  have hunits : 0 < f64Units x ↔ f64Mag x ≠ 0 :=
    calc 0 < f64Units x ↔ binary64.units 0 < binary64.units (f64Mag x) := by
          rw [binary64.units_zero, f64Units]
      _ ↔ f64Mag x ≠ 0 := by rw [binary64.units_strictMono.lt_iff_lt, Nat.pos_iff_ne_zero]
  have hden : (0 : Rat) < 2 ^ binary64.unitExp := by positivity
  rw [f64Value, div_pos_iff_of_pos_right hden, ← hunits]
  cases f64Neg x
  · simp
  · simp [Nat.cast_nonneg]

theorem eq_posInf_iff (x : F64) :
    x = 0x7FF0000000000000#64 ↔ isInf x = true ∧ f64Neg x = false := by
  constructor
  · rintro rfl
    decide +kernel
  · rintro ⟨hinf, hneg⟩
    rw [← f64Make_self x, hneg, eq_of_beq hinf]
    decide +kernel

theorem isNaN_of_isInf {x : F64} (h : isInf x) : isNaN x = false := by
  simp [isNaN, eq_of_beq h]

/-- The IEEE comparison `v > 0` is positivity of the number (R123). -/
theorem isPositive_iff (v : F64) : isPositive v = true ↔ strictlyPositive v := by
  rw [strictlyPositive, eq_posInf_iff, f64Value_pos_iff, isFinite_iff]
  by_cases hinf : isInf v = true
  · have hmag : f64Mag v = binary64.infMag := eq_of_beq hinf
    have hpos : binary64.infMag ≠ 0 := (binary64.infMag_even binary64_ok).2.ne'
    simp [isPositive, hinf, isNaN_of_isInf hinf, hmag, hpos]
  · simp [isPositive, hinf, and_assoc]

theorem isNaN_of_strictlyPositive {v : F64} (h : strictlyPositive v) : isNaN v = false := by
  rcases h with rfl | ⟨hv, -⟩
  · decide +kernel
  · exact ((isFinite_iff v).1 hv).1

theorem positiveVelocity_of_strictlyPositive {v : F64} (h : strictlyPositive v) :
    positiveVelocity (some v) = some v := if_pos ((isPositive_iff v).2 h)

theorem positiveVelocity_of_not_strictlyPositive {v : F64} (h : ¬ strictlyPositive v) :
    positiveVelocity (some v) = none := if_neg (mt (isPositive_iff v).1 h)

theorem exec_setPositionFloat (node : Int) (pos : F64) (vel : Option F64) (s : State) :
    exec (.setPositionFloat node pos vel) s =
      answer (encodeFrame node .setPositionFloat (bodyPositionFloat pos vel)) s := rfl

theorem bodyPositionFloat_of_overflows32 {pos : F64} (h : overflows32 pos) (vel : Option F64) :
    bodyPositionFloat pos vel = raiseValue .pos := by
  rw [bodyPositionFloat, float32_of_overflows32 h]
  rfl

theorem bodyPositionFloat_of_no_velocity {pos : F64} (h : ¬ overflows32 pos) {vel : Option F64}
    (hvel : positiveVelocity vel = none) :
    bodyPositionFloat pos vel = .ok (memWrite [] 0 4 (float32Bits pos)) := by
  rw [bodyPositionFloat, float32_of_not_overflows32 h, hvel]

theorem bodyPositionFloat_of_velocity {pos v : F64} (h : ¬ overflows32 pos)
    (hv : strictlyPositive v) : bodyPositionFloat pos (some v) =
      (float32 v .vel).map fun z => memWrite (memWrite [] 0 4 (float32Bits pos)) 4 4 z := by
  rw [bodyPositionFloat, float32_of_not_overflows32 h, positiveVelocity_of_strictlyPositive hv]

/-- A command whose velocity is not appended is answered with the position alone. -/
theorem exec_setPositionFloat_alone {node : Int} (hnode : isByte node) {pos : F64}
    (h : ¬ overflows32 pos) {vel : Option F64} (hvel : positiveVelocity vel = none) (s : State) :
    exec (.setPositionFloat node pos vel) s =
      .next (afterResponse s (frameTo node 68 (bytesOf32 (float32Bits pos)))) := by
  rw [exec_setPositionFloat, bodyPositionFloat_of_no_velocity h hvel]
  exact answer_encodeFrame_ok hnode _ _ s

/-- Settles O21: the position is converted first, and a velocity only when it is strictly
positive. -/
theorem setPositionFloatBehaviour : Obligations.SetPositionFloatBehaviour := by
  intro node pos s
  refine ⟨fun vel hnode => ?_, fun vel hnode hover => ?_, fun hnode hfits => ?_,
    fun v hnode hfits hv => ?_, fun v hnode hfits hv hover => ?_, fun v hnode hfits hv hvfits => ?_⟩
  · exact answer_encodeFrame_of_not_isByte hnode _ _ s
  · rw [exec_setPositionFloat, bodyPositionFloat_of_overflows32 hover]
    exact answer_encodeFrame_raiseValue hnode _ _ s
  · exact exec_setPositionFloat_alone hnode hfits rfl s
  · exact exec_setPositionFloat_alone hnode hfits (positiveVelocity_of_not_strictlyPositive hv) s
  · rw [exec_setPositionFloat, bodyPositionFloat_of_velocity hfits hv, float32_of_overflows32 hover]
    exact answer_encodeFrame_raiseValue hnode _ _ s
  · have hbits : float32Bits v = rne32 v := if_neg (by simp [isNaN_of_strictlyPositive hv])
    rw [exec_setPositionFloat, bodyPositionFloat_of_velocity hfits hv,
      float32_of_not_overflows32 hvfits, hbits]
    exact answer_encodeFrame_ok hnode _ _ s

end Sys2Proof.Machine
end

section
/-!
PROOFS for `41_command_encoder.md` (R111 to R113, R129): the arithmetic of the operand conversions,
said of the numbers the data stand for.
-/

namespace Sys2Proof.Machine

open Sys2Proof.Certificates

/-! ### The rounded product (R111) -/

theorem roundMag_binary64_lt_two_pow (num den : Nat) : binary64.roundMag num den < 2 ^ 63 := by
  have hle := binary64.roundMag_le num den
  have hinf := infMag_binary64
  omega

theorem mul64_eq {x : F64} (hx : isFinite x) (F : Nat) :
    mul64 x F = f64Make (f64Neg x) (binary64.roundMag (f64Units x * F) 1) := if_pos hx

theorem f64Mag_mul64 {x : F64} (hx : isFinite x) (F : Nat) :
    f64Mag (mul64 x F) = binary64.roundMag (f64Units x * F) 1 := by
  rw [mul64_eq hx]
  exact (f64Make_parts _ _ (roundMag_binary64_lt_two_pow _ _)).1

theorem f64Neg_mul64 {x : F64} (hx : isFinite x) (F : Nat) : f64Neg (mul64 x F) = f64Neg x := by
  rw [mul64_eq hx]
  exact (f64Make_parts _ _ (roundMag_binary64_lt_two_pow _ _)).2

theorem isInf_eq_false_iff_of_le {x : F64} (h : f64Mag x ≤ binary64.infMag) :
    isInf x = false ↔ isFinite x = true := by
  rw [isInf, beq_eq_false_iff_ne, isFinite_iff_mag, h.lt_iff_ne]

/-- A product is finite or an infinity. -/
theorem isInf_mul64_eq_false_iff {x : F64} (hx : isFinite x) (F : Nat) :
    isInf (mul64 x F) = false ↔ isFinite (mul64 x F) = true := by
  refine isInf_eq_false_iff_of_le ?_
  rw [f64Mag_mul64 hx]
  exact binary64.roundMag_le _ _

/-- The real product in units, over the denominator 1 that `mul64` rounds with. -/
theorem f64Value_mul (x : F64) (F : Nat) :
    f64Value x * F = signFactor (f64Neg x) *
      (((f64Units x * F : Nat) : Rat) / ((1 : Nat) * 2 ^ binary64.unitExp)) := by
  rw [f64Value_eq]
  push_cast
  ring

theorem abs_signFactor_mul (neg : Bool) (q : Rat) : |(signFactor neg : Rat) * q| = |q| := by
  cases neg <;> simp [signFactor]

theorem abs_f64Value_mul (x : F64) (F : Nat) :
    |f64Value x * F| = ((f64Units x * F : Nat) : Rat) / ((1 : Nat) * 2 ^ binary64.unitExp) := by
  rw [f64Value_mul, abs_signFactor_mul, abs_of_nonneg (by positivity)]

/-- A product rounds to a finite datum exactly below the midpoint above the largest one. -/
theorem isFinite_mul64_iff {x : F64} (hx : isFinite x) (F : Nat) :
    isFinite (mul64 x F) = true ↔ |f64Value x * F| < 2 ^ 1024 - 2 ^ 970 := by
  rw [isFinite_iff_mag, f64Mag_mul64 hx, roundMag_binary64_lt_infMag_iff _ one_pos,
    abs_f64Value_mul]

/-- Settles O23: `mul64` is `roundMag` of the product's units under the sign of `x`. -/
theorem mul64IsTheNearestProduct : Obligations.Mul64IsTheNearestProduct := by
  intro x F hx
  refine ⟨f64Neg_mul64 hx F, fun hlt => ?_, fun hge => ?_⟩
  · rw [abs_f64Value_mul] at hlt
    rw [f64Value_mul, mul64_eq hx]
    exact f64Make_roundMag_isNearest _ _ one_pos hlt
  · by_contra hinf
    rw [Bool.not_eq_true, isInf_mul64_eq_false_iff hx, isFinite_mul64_iff hx] at hinf
    exact absurd hinf hge.not_gt

/-! ### The integer part (R111, R13) -/

theorem mul64_one {x : F64} (hx : isFinite x) : mul64 x 1 = x := by
  have hround := binary64.roundMag_units binary64_ok (f64Mag x) 1 one_pos
    ((isFinite_iff_mag x).1 hx).le
  rw [mul64_eq hx, f64Units, hround, f64Make_self]

theorem f64Value_eq_sign_mul_abs (x : F64) :
    f64Value x = signFactor (f64Neg x) * |f64Value x| := by
  rw [abs_f64Value, f64Value_eq]
  push_cast
  ring

/-- The integer part is the floor of the magnitude, under the same sign. -/
theorem trunc_eq_sign_mul_floor (p : F64) :
    (trunc p : Rat) = signFactor (f64Neg p) * (⌊|f64Value p|⌋₊ : Rat) := by
  have hfloor : ⌊|f64Value p|⌋₊ = f64Units p / 2 ^ binary64.unitExp := by
    rw [abs_f64Value, ← Nat.floor_div_eq_div (K := Rat), Nat.cast_pow, Nat.cast_ofNat]
  rw [hfloor]
  unfold trunc
  generalize f64Units p / 2 ^ binary64.unitExp = n
  cases f64Neg p <;> simp [signFactor]

theorem abs_trunc (p : F64) : |(trunc p : Rat)| = (⌊|f64Value p|⌋₊ : Rat) := by
  rw [trunc_eq_sign_mul_floor, abs_signFactor_mul, Nat.abs_cast]

theorem abs_trunc_le (p : F64) : |(trunc p : Rat)| ≤ |f64Value p| := by
  rw [abs_trunc]
  exact Nat.floor_le (abs_nonneg _)

theorem abs_lt_abs_trunc_add_one (p : F64) : |f64Value p| < |(trunc p : Rat)| + 1 := by
  rw [abs_trunc]
  exact Nat.lt_floor_add_one _

/-- The integer part is on the same side of zero as every datum of the same sign. -/
theorem trunc_mul_f64Value_nonneg {p x : F64} (h : f64Neg p = f64Neg x) :
    0 ≤ (trunc p : Rat) * f64Value x := by
  rw [trunc_eq_sign_mul_floor, f64Value_eq_sign_mul_abs x, h, mul_mul_mul_comm]
  exact mul_nonneg (mul_self_nonneg _) (by positivity)

/-- Less than 1 is lost in the truncation. -/
theorem abs_f64Value_sub_trunc_lt_one (p : F64) : |f64Value p - trunc p| < 1 := by
  have hle : (⌊|f64Value p|⌋₊ : Rat) ≤ |f64Value p| := Nat.floor_le (abs_nonneg _)
  have hlt : |f64Value p| < ⌊|f64Value p|⌋₊ + 1 := Nat.lt_floor_add_one _
  have hdiff : f64Value p - trunc p =
      signFactor (f64Neg p) * (|f64Value p| - (⌊|f64Value p|⌋₊ : Rat)) := by
    rw [mul_sub, ← f64Value_eq_sign_mul_abs, trunc_eq_sign_mul_floor]
  rw [hdiff, abs_signFactor_mul, abs_of_nonneg (sub_nonneg.2 hle)]
  linarith

/-- Settles O24. -/
theorem truncIsTheIntegerPart : Obligations.TruncIsTheIntegerPart := fun x hx =>
  ⟨mul64_one hx, abs_trunc_le x, abs_lt_abs_trunc_add_one x, trunc_mul_f64Value_nonneg rfl⟩

/-! ### SetRpm (R112, R118) -/

/-- Two integers of the magnitude `⌊|v|⌋`, neither of the sign opposite to `v`, are equal. -/
theorem eq_of_integer_part {v : Rat} {m n : Int} (hm : |(m : Rat)| ≤ |v|)
    (hm' : |v| < |(m : Rat)| + 1) (hmv : 0 ≤ (m : Rat) * v) (hn : |(n : Rat)| ≤ |v|)
    (hn' : |v| < |(n : Rat)| + 1) (hnv : 0 ≤ (n : Rat) * v) : m = n := by
  have habs : |m| = |n| := by
    have hmn : |m| < |n| + 1 := by exact_mod_cast hm.trans_lt hn'
    have hnm : |n| < |m| + 1 := by exact_mod_cast hn.trans_lt hm'
    omega
  rcases abs_eq_abs.1 habs with h | rfl
  · exact h
  · rw [Int.cast_neg, neg_mul] at hmv
    rcases mul_eq_zero.1 (le_antisymm (neg_nonneg.1 hmv) hnv) with h0 | rfl
    · rw [Int.cast_eq_zero.1 h0, neg_zero]
    · rw [abs_zero, abs_nonpos_iff, Int.cast_eq_zero] at hn
      rw [hn, neg_zero]

/-- Settles O27: the inequalities leave only `trunc rpm`, which `setRpmBehaviour` speaks of. -/
theorem rpmIsTruncatedTowardZero : Obligations.RpmIsTruncatedTowardZero := by
  intro node n x s hnode hn hx hle hlt hsign
  have htrunc : trunc (mul64 x 1) = n := by
    rw [mul64_one hx]
    exact eq_of_integer_part (abs_trunc_le x) (abs_lt_abs_trunc_add_one x)
      (trunc_mul_f64Value_nonneg rfl) hle hlt hsign
  obtain ⟨-, hframe, -⟩ := setRpmBehaviour node x s
  rw [htrunc, mul64_one hx] at hframe
  exact hframe hnode hx hx hn

/-! ### The round trip of a scaled field (R129) -/

/-- Twice the rounding error of a magnitude that does not overflow is at most the weight of a
dropped bit, and where a bit is dropped the result fills the significand. -/
theorem FloatFormat.roundMag_error (fmt : FloatFormat) (h : fmt.ok) (num den : Nat) (hd : 0 < den)
    (hlt : fmt.roundMag num den < fmt.infMag) :
    ∃ q : Nat, 2 * |(num : Int) - den * fmt.units (fmt.roundMag num den)| ≤ den * 2 ^ q ∧
      (q = 0 ∨ 2 ^ (fmt.prec - 1) * 2 ^ q ≤ fmt.units (fmt.roundMag num den)) := by
  obtain ⟨q, sig, -, hsig, hr, hs, hqs, -⟩ := fmt.roundMag_eq h num den hd
  have hround : fmt.roundMag num den = q * 2 ^ (fmt.prec - 1) + sig := by omega
  have hunits : fmt.units (fmt.roundMag num den) = sig * 2 ^ q := by
    rw [hround, fmt.units_shift q sig hs hqs]
  refine ⟨q, ?_, hqs.imp_right fun hfull => ?_⟩
  · have herr := rneDiv_error num (den * 2 ^ q) (by positivity)
    rw [← hsig] at herr
    rw [hunits]
    push_cast at herr ⊢
    rwa [mul_assoc, mul_comm ((2 : Int) ^ q)] at herr
  · rw [hunits]
    exact Nat.mul_le_mul_right _ hfull

/-- The rounding error of a product, in units. -/
theorem abs_f64Value_mul64_sub {x : F64} (hx : isFinite x) (F : Nat) :
    |f64Value (mul64 x F) - f64Value x * F| =
      (|((f64Units x * F : Nat) : Int) - f64Units (mul64 x F)| : Int) /
        (2 : Rat) ^ binary64.unitExp := by
  have hdiff : f64Value x * F - f64Value (mul64 x F) = signFactor (f64Neg x) *
      ((((f64Units x * F : Nat) : Rat) - f64Units (mul64 x F)) / 2 ^ binary64.unitExp) := by
    rw [f64Value_eq, f64Value_eq, f64Neg_mul64 hx]
    push_cast
    ring
  rw [abs_sub_comm, hdiff, abs_signFactor_mul, abs_div, abs_of_pos (a := (2 : Rat) ^ _)
    (by positivity), Int.cast_abs, Int.cast_sub, Int.cast_natCast, Int.cast_natCast]

/-- A datum below `2^32` in magnitude that fills its significand has a last place of `2^-21` or
less. -/
theorem dropped_bits_le {p : F64} {q : Nat}
    (hq : q = 0 ∨ 2 ^ (binary64.prec - 1) * 2 ^ q ≤ f64Units p) (hlt : |f64Value p| < 2 ^ 32) :
    q + 21 ≤ binary64.unitExp := by
  rcases hq with rfl | hfull
  · decide
  · rw [abs_f64Value, div_lt_iff₀ (by positivity), ← pow_add] at hlt
    have hpow : 2 ^ (binary64.prec - 1 + q) < 2 ^ (32 + binary64.unitExp) := by
      rw [pow_add]
      refine hfull.trans_lt (Nat.cast_lt.1 (?_ : ((_ : Nat) : Rat) < _))
      rwa [Nat.cast_pow, Nat.cast_ofNat]
    have hexp := (Nat.pow_lt_pow_iff_right Nat.one_lt_two).1 hpow
    have hprec : binary64.prec = 53 := rfl
    omega

/-- A product below `2^32` in magnitude is rounded by at most `2^-22`. -/
theorem abs_f64Value_mul64_sub_le {x : F64} {F : Nat} (hx : isFinite x)
    (hp : isFinite (mul64 x F)) (hlt : |f64Value (mul64 x F)| < 2 ^ 32) :
    |f64Value (mul64 x F) - f64Value x * F| ≤ 1 / 2 ^ 22 := by
  have hround : binary64.roundMag (f64Units x * F) 1 < binary64.infMag := by
    rw [← f64Mag_mul64 hx]
    exact (isFinite_iff_mag _).1 hp
  obtain ⟨q, herr, hq⟩ := binary64.roundMag_error binary64_ok _ 1 one_pos hround
  rw [← f64Mag_mul64 hx, ← f64Units] at herr hq
  rw [Nat.cast_one, one_mul, one_mul] at herr
  have hlast := dropped_bits_le hq hlt
  have hunit : (2 : Rat) ^ q * 2 ^ 21 ≤ 2 ^ binary64.unitExp := by
    rw [← pow_add]
    exact pow_le_pow_right₀ one_le_two hlast
  have herr' : (2 : Rat) * (|((f64Units x * F : Nat) : Int) - f64Units (mul64 x F)| : Int) ≤
      2 ^ q := by exact_mod_cast herr
  rw [abs_f64Value_mul64_sub hx, div_le_iff₀ (by positivity)]
  linarith

/-- What a conversion that did not raise says of its parameter (R111). -/
theorem of_scaledInt32_eq_ok {x : F64} {F : Nat} {field : ParamField} {b : BitVec 32}
    (h : scaledInt32 x F field = .ok b) :
    isFinite x ∧ isFinite (mul64 x F) ∧ isInt32 (trunc (mul64 x F)) ∧
      b.toInt = trunc (mul64 x F) := by
  rcases scaledInt32_cases x F field with ⟨-, hraise⟩ | ⟨hnan, hinf, hpinf, hlo, hhi, hok⟩
  · exact absurd (hraise.symm.trans h) nofun
  · have hx : isFinite x = true := (isFinite_iff x).2 ⟨hnan, hinf⟩
    refine ⟨hx, (isInf_mul64_eq_false_iff hx F).1 hpinf, ⟨by omega, by omega⟩, ?_⟩
    rw [← Except.ok.inj (hok.symm.trans h), ← sint_eq_toInt]
    exact sint_twos (by decide) hlo hhi

/-- An int32 integer part leaves the product below `2^32` in magnitude. -/
theorem abs_f64Value_lt_of_isInt32_trunc {p : F64} (h : isInt32 (trunc p)) :
    |f64Value p| < 2 ^ 32 := by
  have hn : |trunc p| ≤ 2 ^ 31 := abs_le.2 ⟨by omega, by omega⟩
  have hn' : |(trunc p : Rat)| ≤ 2 ^ 31 := by exact_mod_cast hn
  linarith [abs_lt_abs_trunc_add_one p]

/-- Settles O28: less than 1 is lost in the truncation and at most `2^-22` in the rounding before
it. -/
theorem scalingRoundTripBound : Obligations.ScalingRoundTripBound := by
  intro x F field b hF hok
  obtain ⟨hx, hp, hn, hb⟩ := of_scaledInt32_eq_ok hok
  have hround := abs_f64Value_mul64_sub_le hx hp (abs_f64Value_lt_of_isInt32_trunc hn)
  have hcut := abs_f64Value_sub_trunc_lt_one (mul64 x F)
  have hF' : (0 : Rat) < F := Nat.cast_pos.2 hF
  rw [hb]
  refine ⟨trunc_mul_f64Value_nonneg (f64Neg_mul64 hx F), ?_, ?_⟩
  · have htri : |f64Value (mul64 x F)| ≤
        |f64Value x| * F + |f64Value (mul64 x F) - f64Value x * F| := by
      have h := abs_add_le (f64Value x * F) (f64Value (mul64 x F) - f64Value x * F)
      rwa [add_sub_cancel, abs_mul, Nat.abs_cast] at h
    rw [abs_div, Nat.abs_cast, div_le_iff₀ hF', add_mul, div_mul_cancel₀ _ hF'.ne']
    exact (abs_trunc_le _).trans htri
  · have htri := abs_sub_le (f64Value x * F) (f64Value (mul64 x F)) (trunc (mul64 x F))
    rw [abs_sub_comm (f64Value x * F) (f64Value (mul64 x F))] at htri
    have hscale : |f64Value x - (trunc (mul64 x F) : Rat) / F| * F =
        |f64Value x * F - trunc (mul64 x F)| := by
      rw [← Nat.abs_cast (R := Rat) F, ← abs_mul, Nat.abs_cast, sub_mul, div_mul_cancel₀ _ hF'.ne']
    rw [lt_div_iff₀ hF', hscale]
    linarith

/-! ### Rounding to binary32 (R73, R113) -/

theorem overflowTwice_binary32 :
    binary32.overflowTwice = 2 * ((2 ^ 128 - 2 ^ 103) * 2 ^ binary32.unitExp) := by decide +kernel

/-- The units of binary64 in one unit of binary32: the denominator `rne32` rounds with
(`rne32_of_isFinite`). -/
def unitRatio : Nat := 2 ^ (binary64.unitExp - binary32.unitExp)

theorem unitRatio_pos : 0 < unitRatio := Nat.two_pow_pos _

theorem unitRatio_mul : unitRatio * 2 ^ binary32.unitExp = 2 ^ binary64.unitExp := by
  rw [unitRatio, ← pow_add, Nat.sub_add_cancel (by decide)]

theorem roundMag_binary32_lt_two_pow (num den : Nat) : binary32.roundMag num den < 2 ^ 31 := by
  have hle := binary32.roundMag_le num den
  have hinf := infMag_binary32
  omega

theorem rne32_of_isFinite {x : F64} (hx : isFinite x) :
    rne32 x = f32Make (f64Neg x) (binary32.roundMag (f64Units x) unitRatio) := by
  obtain ⟨hnan, hinf⟩ := (isFinite_iff x).1 hx
  rw [rne32, hnan, hinf]
  rfl

theorem rne32_of_isInf {x : F64} (hx : isInf x) : rne32 x = f32Make (f64Neg x) binary32.infMag := by
  rw [rne32, isNaN_of_isInf hx, hx]
  rfl

theorem f32Mag_rne32 {x : F64} (hx : isFinite x) :
    f32Mag (rne32 x) = binary32.roundMag (f64Units x) unitRatio := by
  rw [rne32_of_isFinite hx]
  exact (f32Make_parts _ _ (roundMag_binary32_lt_two_pow _ _)).1

/-- The sign is kept, of an infinity too (R113). -/
theorem msb_rne32 {x : F64} (hx : isNaN x = false) : (rne32 x).msb = f64Neg x := by
  cases hinf : isInf x with
  | true =>
    rw [rne32_of_isInf hinf]
    exact (f32Make_parts _ _ (by decide)).2
  | false =>
    rw [rne32_of_isFinite ((isFinite_iff x).2 ⟨hx, hinf⟩)]
    exact (f32Make_parts _ _ (roundMag_binary32_lt_two_pow _ _)).2

theorem isInf32_rne32_of_isInf {x : F64} (hx : isInf x) : isInf32 (rne32 x) = true := by
  rw [rne32_of_isInf hx, isInf32, (f32Make_parts _ _ (by decide)).1, beq_self_eq_true]

/-- A finite value rounds to an infinity exactly from the midpoint above the largest datum on. -/
theorem isInf32_rne32_iff {x : F64} (hx : isFinite x) :
    isInf32 (rne32 x) = true ↔ 2 ^ 128 - 2 ^ 103 ≤ |f64Value x| := by
  rw [isInf32, beq_iff_eq, f32Mag_rne32 hx,
    binary32.roundMag_eq_infMag binary32_ok _ _ unitRatio_pos, overflowTwice_binary32,
    ← cast_two_pow_sub (by decide : 103 ≤ 128), abs_f64Value, le_div_iff₀ (by positivity)]
  generalize 2 ^ 128 - 2 ^ 103 = limit
  rw [mul_left_comm, mul_left_comm _ limit, unitRatio_mul, Nat.mul_le_mul_left_iff two_pos]
  exact_mod_cast Iff.rfl

theorem f32Mag_rne32_lt_infMag_iff {x : F64} (hx : isFinite x) :
    f32Mag (rne32 x) < binary32.infMag ↔ |f64Value x| < 2 ^ 128 - 2 ^ 103 := by
  have hle : f32Mag (rne32 x) ≤ binary32.infMag := by
    rw [f32Mag_rne32 hx]
    exact binary32.roundMag_le _ _
  rw [hle.lt_iff_ne, ← not_le, ← isInf32_rne32_iff hx, isInf32, beq_iff_eq]

/-- The distance of a binary64 datum from a binary32 one, in units of binary64. -/
theorem abs_f64Value_sub_f32Value (x : F64) (z : F32) :
    |f64Value x - f32Value z| =
      (|signFactor (f64Neg x) * f64Units x - unitRatio *
        (signFactor z.msb * binary32.units (f32Mag z))| : Int) / (2 : Rat) ^ binary64.unitExp := by
  have hunit : (2 : Rat) ^ binary64.unitExp = unitRatio * 2 ^ binary32.unitExp := by
    exact_mod_cast unitRatio_mul.symm
  have hpos : (0 : Rat) < 2 ^ binary64.unitExp := by positivity
  have hdiff : f64Value x - f32Value z =
      (signFactor (f64Neg x) * f64Units x - unitRatio *
        (signFactor z.msb * binary32.units (f32Mag z)) : Int) / (2 : Rat) ^ binary64.unitExp := by
    have hratio : (unitRatio : Rat) ≠ 0 := Nat.cast_ne_zero.2 unitRatio_pos.ne'
    rw [f64Value_eq, f32Value_eq, Int.cast_sub, sub_div, Int.cast_mul _ (_ * _), Int.cast_natCast,
      hunit, mul_div_mul_left _ _ hratio]
  rw [hdiff, abs_div, abs_of_pos hpos, Int.cast_abs]

/-- Below the threshold `rne32` is the nearest datum, ties to even. -/
theorem rne32_isNearest {x : F64} (hx : isFinite x) (hlt : |f64Value x| < 2 ^ 128 - 2 ^ 103) :
    IsNearest32 (f64Value x) (rne32 x) := by
  have hfin := (f32Mag_rne32_lt_infMag_iff hx).2 hlt
  refine ⟨hfin, fun z _ => ?_⟩
  rw [f32Mag_rne32 hx] at hfin
  obtain ⟨hnear, htie⟩ := binary32.roundMag_signed_nearest binary32_ok _ _ unitRatio_pos hfin
    (f64Neg x) z.msb (f32Mag z)
  have hpos : (0 : Rat) < 2 ^ binary64.unitExp := by positivity
  have hsign : (rne32 x).msb = f64Neg x := msb_rne32 ((isFinite_iff x).1 hx).1
  rw [abs_f64Value_sub_f32Value, abs_f64Value_sub_f32Value, div_le_div_iff_of_pos_right hpos,
    div_left_inj' hpos.ne', Int.cast_le, Int.cast_inj, f32Value_eq z, f32Value_eq (rne32 x),
    hsign, f32Mag_rne32 hx]
  refine ⟨hnear, fun heq => (htie heq).imp (fun hsame => by rw [hsame]) fun heven => ?_⟩
  rw [← f32Mag_rne32 hx, f32Mag] at heven
  omega

/-- Settles O25. -/
theorem rne32IsTheNearestSingle : Obligations.Rne32IsTheNearestSingle := fun _ =>
  ⟨msb_rne32, isInf32_rne32_of_isInf, rne32_isNearest, fun hx => (isInf32_rne32_iff hx).2⟩

/-! ### The float field (R113) -/

theorem overflows32_iff (x : F64) :
    overflows32 x ↔ isFinite x ∧ 2 ^ 128 - 2 ^ 103 ≤ |f64Value x| :=
  and_congr_right fun hx => isInf32_rne32_iff hx

theorem float32_of_isNaN {x : F64} (hx : isNaN x) (field : ParamField) :
    float32 x field = .ok 0x7FC00000#32 := by
  rw [float32, if_pos hx]
  rfl

theorem float32_of_isInf {x : F64} (hx : isInf x) (field : ParamField) :
    float32 x field = .ok (f32Make (f64Neg x) binary32.infMag) := by
  have hfits : ¬ overflows32 x := fun h => by simp [((isFinite_iff x).1 h.1).2] at hx
  rw [float32_of_not_overflows32 hfits, float32Bits, if_neg (by simp [isNaN_of_isInf hx]),
    rne32_of_isInf hx]

theorem float32_of_lt {x : F64} (hx : isFinite x) (hlt : |f64Value x| < 2 ^ 128 - 2 ^ 103)
    (field : ParamField) : float32 x field = .ok (rne32 x) := by
  have hfits : ¬ overflows32 x := fun h => absurd ((overflows32_iff x).1 h).2 hlt.not_ge
  rw [float32_of_not_overflows32 hfits, float32Bits, if_neg (by simp [((isFinite_iff x).1 hx).1])]

/-- Settles O26. -/
theorem floatFieldHoldsTheNearestSingle : Obligations.FloatFieldHoldsTheNearestSingle := by
  intro x field
  refine ⟨fun hx => float32_of_isNaN hx field, ?_, ?_, fun hx hge => ?_, fun hx hlt => ?_⟩
  · rintro rfl
    exact float32_of_isInf (by decide +kernel) field
  · rintro rfl
    exact float32_of_isInf (by decide +kernel) field
  · exact float32_of_overflows32 ((overflows32_iff x).2 ⟨hx, hge⟩) field
  · exact ⟨rne32 x, float32_of_lt hx hlt field, msb_rne32 ((isFinite_iff x).1 hx).1,
      rne32_isNearest hx hlt⟩

end Sys2Proof.Machine
end

section
/-!
PROOFS for `42_telemetry_decoder.md` (R150 to R161): the record each status row reads out of its
payload, what a DECODE answers in each of its outcomes, and the binary64 view of a field.
-/

namespace Sys2Proof.Machine

open Sys2Proof.Certificates

/-! ### Fields of a payload written out (R151, R152) -/

theorem beVal_cons_succ (b : Byte) (p : List Byte) (off n : Nat) :
    beVal (b :: p) (off + 1) n = beVal p off n := by
  induction n with
  | zero => rfl
  | succ n ih => rw [beVal, beVal, ih, Nat.add_right_comm, List.getD_cons_succ]

/-- A field that starts behind the first byte does not read it. -/
theorem scale_cons_succ (b : Byte) (p : List Byte) (off W d : Nat) :
    scale (b :: p) (off + 1) W d = scale p off W d := by
  simp only [scale, fieldInt, memRead, beVal_cons_succ]

theorem scale_four_bytes (b0 b1 b2 b3 : Byte) (rest : List Byte) (d : Nat) :
    scale (b0 :: b1 :: b2 :: b3 :: rest) 0 32 d = fieldOf (b0 ++ b1 ++ b2 ++ b3) d := by
  rw [scale, fieldInt_32 b0 b1 b2 b3 _ 0 rfl rfl rfl rfl]

theorem scale_two_bytes (b0 b1 : Byte) (rest : List Byte) (d : Nat) :
    scale (b0 :: b1 :: rest) 0 16 d = fieldOf (b0 ++ b1) d := by
  rw [scale, fieldInt_16 b0 b1 _ 0 rfl rfl]

/-! ### The outcomes of a status row (R150, R153 to R159) -/

/-- The record a status row reads out of its payload, `LAYOUT_t(node)` (R154 to R159). -/
def layoutOf (k : StatusKind) (node : Byte) (p : List Byte) : TelemetryRecord :=
  match k with
  | .status => .status node (scale p 0 32 1) (scale p 4 16 10) (scale p 6 16 1000)
  | .status2 => .status2 node (scale p 0 32 10000) (scale p 4 32 10000)
  | .status3 => .status3 node (scale p 0 32 10000) (scale p 4 32 10000)
  | .status4 =>
    .status4 node (scale p 0 16 10) (scale p 2 16 10) (scale p 4 16 10) (scale p 6 16 50)
  | .status5 => .status5 node (scale p 0 32 6) (scale p 4 16 10)
  | .status6 =>
    .status6 node (scale p 0 16 1000) (scale p 2 16 1000) (scale p 4 16 1000) (scale p 6 16 1000)

theorem exec_rowOf (k : StatusKind) (hi : BitVec 16) (node : Byte) (p : List Byte) (s : State) :
    exec (rowOf k hi node p) s = answer (decodeRecord k p (layoutOf k node p)) s := by
  cases k <;> rfl

/-- A payload too short for its row is answered by its FormatError (R150, R202). -/
theorem shortPayloadFails_rowOf (k : StatusKind) :
    ShortPayloadFails (rowOf k) (statusTypeId k) (reqLen k) := by
  intro hi node p s hshort
  rw [exec_rowOf, decodeRecord, if_pos hshort]
  rfl

/-- A payload of at least the required length is answered by the record of its row (R150). -/
theorem exec_rowOf_of_reqLen_le {k : StatusKind} {p : List Byte} (hlen : reqLen k ≤ p.length)
    (hi : BitVec 16) (node : Byte) (s : State) :
    exec (rowOf k hi node p) s = .next (afterResponse s (.record (layoutOf k node p))) := by
  rw [exec_rowOf, decodeRecord, if_neg hlen.not_gt]
  rfl

/-- The same with the record said in other words. -/
theorem exec_rowOf_eq_record {k : StatusKind} {p : List Byte} {node : Byte}
    {layout : TelemetryRecord} (hlayout : layoutOf k node p = layout) (hlen : reqLen k ≤ p.length)
    (hi : BitVec 16) (s : State) :
    exec (rowOf k hi node p) s = .next (afterResponse s (.record layout)) := by
  rw [exec_rowOf_of_reqLen_le hlen, hlayout]

/-! ### The six status frames (R154 to R159) -/

section Layouts

variable (node b0 b1 b2 b3 b4 b5 b6 b7 : Byte) (rest : List Byte)

theorem layoutOf_status :
    layoutOf .status node (b0 :: b1 :: b2 :: b3 :: b4 :: b5 :: b6 :: b7 :: rest) =
      .status node (fieldOf (b0 ++ b1 ++ b2 ++ b3) 1) (fieldOf (b4 ++ b5) 10)
        (fieldOf (b6 ++ b7) 1000) := by
  simp only [layoutOf, scale_cons_succ, scale_four_bytes, scale_two_bytes]

theorem layoutOf_status2 :
    layoutOf .status2 node (b0 :: b1 :: b2 :: b3 :: b4 :: b5 :: b6 :: b7 :: rest) =
      .status2 node (fieldOf (b0 ++ b1 ++ b2 ++ b3) 10000)
        (fieldOf (b4 ++ b5 ++ b6 ++ b7) 10000) := by
  simp only [layoutOf, scale_cons_succ, scale_four_bytes]

theorem layoutOf_status3 :
    layoutOf .status3 node (b0 :: b1 :: b2 :: b3 :: b4 :: b5 :: b6 :: b7 :: rest) =
      .status3 node (fieldOf (b0 ++ b1 ++ b2 ++ b3) 10000)
        (fieldOf (b4 ++ b5 ++ b6 ++ b7) 10000) := by
  simp only [layoutOf, scale_cons_succ, scale_four_bytes]

theorem layoutOf_status4 :
    layoutOf .status4 node (b0 :: b1 :: b2 :: b3 :: b4 :: b5 :: b6 :: b7 :: rest) =
      .status4 node (fieldOf (b0 ++ b1) 10) (fieldOf (b2 ++ b3) 10) (fieldOf (b4 ++ b5) 10)
        (fieldOf (b6 ++ b7) 50) := by
  simp only [layoutOf, scale_cons_succ, scale_two_bytes]

theorem layoutOf_status5 :
    layoutOf .status5 node (b0 :: b1 :: b2 :: b3 :: b4 :: b5 :: rest) =
      .status5 node (fieldOf (b0 ++ b1 ++ b2 ++ b3) 6) (fieldOf (b4 ++ b5) 10) := by
  simp only [layoutOf, scale_cons_succ, scale_four_bytes, scale_two_bytes]

theorem layoutOf_status6 :
    layoutOf .status6 node (b0 :: b1 :: b2 :: b3 :: b4 :: b5 :: b6 :: b7 :: rest) =
      .status6 node (fieldOf (b0 ++ b1) 1000) (fieldOf (b2 ++ b3) 1000) (fieldOf (b4 ++ b5) 1000)
        (fieldOf (b6 ++ b7) 1000) := by
  simp only [layoutOf, scale_cons_succ, scale_two_bytes]

theorem six_le_length : 6 ≤ (b0 :: b1 :: b2 :: b3 :: b4 :: b5 :: rest).length :=
  Nat.le_add_left 6 rest.length

theorem eight_le_length :
    8 ≤ (b0 :: b1 :: b2 :: b3 :: b4 :: b5 :: b6 :: b7 :: rest).length :=
  Nat.le_add_left 8 rest.length

end Layouts

/-- Settles O29. -/
theorem statusBehaviour : Obligations.StatusBehaviour :=
  ⟨shortPayloadFails_rowOf .status, fun hi _ _ _ _ _ _ _ _ _ _ s =>
    exec_rowOf_eq_record (layoutOf_status ..) (eight_le_length ..) hi s⟩

/-- Settles O30. -/
theorem chargeStatusBehaviour : Obligations.ChargeStatusBehaviour :=
  ⟨shortPayloadFails_rowOf .status2, shortPayloadFails_rowOf .status3,
    fun hi _ _ _ _ _ _ _ _ _ _ s =>
      ⟨exec_rowOf_eq_record (layoutOf_status2 ..) (eight_le_length ..) hi s,
        exec_rowOf_eq_record (layoutOf_status3 ..) (eight_le_length ..) hi s⟩⟩

/-- Settles O31. -/
theorem status4Behaviour : Obligations.Status4Behaviour :=
  ⟨shortPayloadFails_rowOf .status4, fun hi _ _ _ _ _ _ _ _ _ _ s =>
    exec_rowOf_eq_record (layoutOf_status4 ..) (eight_le_length ..) hi s⟩

/-- Settles O32. -/
theorem status5Behaviour : Obligations.Status5Behaviour :=
  ⟨shortPayloadFails_rowOf .status5, fun hi _ _ _ _ _ _ _ _ s =>
    exec_rowOf_eq_record (layoutOf_status5 ..) (six_le_length ..) hi s⟩

/-- Settles O33. -/
theorem status6Behaviour : Obligations.Status6Behaviour :=
  ⟨shortPayloadFails_rowOf .status6, fun hi _ _ _ _ _ _ _ _ _ _ s =>
    exec_rowOf_eq_record (layoutOf_status6 ..) (eight_le_length ..) hi s⟩

/-! ### DECODE of an identifier (R150, R160, R161) -/

theorem exec_decode_of_listed {d : Ident32} {k : StatusKind}
    (h : d.toNat / 256 % 256 = (statusTypeId k).toNat) (p : List Byte) (s : State) :
    exec (requestInstr (.decode d p)) s = exec (rowOf k (BitVec.ofNat 16 (d.toNat / 65536))
      (BitVec.ofNat 8 (d.toNat % 256)) p) s := by
  rw [requestInstr, decodeInstr_of_listed p h]

theorem exec_noRecord (hi : BitVec 16) (typeId node : Byte) (p : List Byte) (s : State) :
    exec (.noRecord hi typeId node p) s = .next (afterResponse s (.noRecord node typeId)) := rfl

theorem exec_decode_of_unlisted {d : Ident32} (h : d.toNat / 256 % 256 ∉ statusIds)
    (p : List Byte) (s : State) :
    exec (requestInstr (.decode d p)) s =
      .next (afterResponse s (.noRecord (BitVec.ofNat 8 (d.toNat % 256))
        (BitVec.ofNat 8 (d.toNat / 256 % 256)))) := by
  rw [requestInstr, decodeInstr_of_unlisted p h, exec_noRecord]

/-- Settles O34. -/
theorem noRecordBehaviour : Obligations.NoRecordBehaviour :=
  ⟨exec_noRecord, fun _ p s h => exec_decode_of_unlisted h p s⟩

/-- A record has the field widths and divisors of its layout (R69, R153). -/
theorem layoutOf_legal (k : StatusKind) (node : Byte) (p : List Byte) :
    (layoutOf k node p).legal := by
  have h16 (off d : Nat) : (scale p off 16 d).legal 16 d := scale_legal p off d rfl
  have h32 (off d : Nat) : (scale p off 32 d).legal 32 d := scale_legal p off d rfl
  cases k with
  | status => exact ⟨h32 _ _, h16 _ _, h16 _ _⟩
  | status2 => exact ⟨h32 _ _, h32 _ _⟩
  | status3 => exact ⟨h32 _ _, h32 _ _⟩
  | status4 => exact ⟨h16 _ _, h16 _ _, h16 _ _, h16 _ _⟩
  | status5 => exact ⟨h32 _ _, h16 _ _⟩
  | status6 => exact ⟨h16 _ _, h16 _ _, h16 _ _, h16 _ _⟩

/-- Settles O35, by the row of the identifier's type id. -/
theorem decodeClassifiesThenChecksLength : Obligations.DecodeClassifiesThenChecksLength := by
  intro d p s
  refine ⟨fun k hk => ⟨fun hshort => ?_, fun hlen => ?_⟩, fun h => exec_decode_of_unlisted h p s⟩
  · rw [exec_decode_of_listed hk]
    exact shortPayloadFails_rowOf k _ _ p s hshort
  · have hrow := exec_rowOf_of_reqLen_le hlen (BitVec.ofNat 16 (d.toNat / 65536))
      (BitVec.ofNat 8 (d.toNat % 256)) s
    exact ⟨_, layoutOf_legal k _ p, (exec_decode_of_listed hk p s).trans hrow, hrow⟩

/-- No layout reads beyond its required length (R161). -/
theorem layoutOf_append {k : StatusKind} {p : List Byte} (hlen : reqLen k ≤ p.length)
    (node : Byte) (q : List Byte) : layoutOf k node (p ++ q) = layoutOf k node p := by
  have h16 (off d : Nat) (h : off + 2 ≤ reqLen k) : scale (p ++ q) off 16 d = scale p off 16 d :=
    scale_append p q off 16 d (h.trans hlen)
  have h32 (off d : Nat) (h : off + 4 ≤ reqLen k) : scale (p ++ q) off 32 d = scale p off 32 d :=
    scale_append p q off 32 d (h.trans hlen)
  cases k <;> simp (disch := decide) only [layoutOf, h16, h32]

/-- Settles O36: both payloads give the record of the bytes they share. -/
theorem trailingBytesIgnored : Obligations.TrailingBytesIgnored := by
  intro d p q q' s k hk hlen
  have hdecode (t : List Byte) : exec (requestInstr (.decode d (p ++ t))) s =
      .next (afterResponse s (.record (layoutOf k (BitVec.ofNat 8 (d.toNat % 256)) p))) := by
    rw [exec_decode_of_listed hk]
    exact exec_rowOf_eq_record (layoutOf_append hlen.ge _ t) (by simp [hlen]) _ s
  rw [hdecode q, hdecode q']

/-! ### The binary64 view of a field (R152) -/

/-- A significand of the format, shifted, is not rounded. -/
theorem FloatFormat.units_roundMag_of_lt (fmt : FloatFormat) (h : fmt.ok) {n : Nat}
    (hn : n < 2 ^ fmt.prec) (e : Nat) (hlt : fmt.roundMag (n * 2 ^ e) 1 < fmt.infMag) :
    fmt.units (fmt.roundMag (n * 2 ^ e) 1) = n * 2 ^ e := by
  obtain ⟨q, sig, -, hsig, hr, hs, hqs, hlow⟩ := fmt.roundMag_eq h (n * 2 ^ e) 1 one_pos
  have hq : q ≤ e := by
    rcases hlow with rfl | hlow
    · exact Nat.zero_le e
    · by_contra hc
      have hexp : fmt.prec + e ≤ fmt.prec - 1 + q := by
        have := h.1
        omega
      have hcontra : n * 2 ^ e < n * 2 ^ e :=
        calc n * 2 ^ e < 2 ^ fmt.prec * 2 ^ e := Nat.mul_lt_mul_of_pos_right hn (by positivity)
          _ = 2 ^ (fmt.prec + e) := (pow_add ..).symm
          _ ≤ 2 ^ (fmt.prec - 1 + q) := Nat.pow_le_pow_right two_pos hexp
          _ = 2 ^ (fmt.prec - 1) * (1 * 2 ^ q) := by rw [pow_add, one_mul]
          _ ≤ n * 2 ^ e := hlow
      exact hcontra.false
  have hsplit : n * 2 ^ e = n * 2 ^ (e - q) * 2 ^ q := by
    rw [mul_assoc, ← pow_add, Nat.sub_add_cancel hq]
  have hexact : sig = n * 2 ^ (e - q) := by
    rw [hsig, one_mul, hsplit, rneDiv_mul _ _ (by positivity)]
  have hround : fmt.roundMag (n * 2 ^ e) 1 = q * 2 ^ (fmt.prec - 1) + sig := by omega
  rw [hround, fmt.units_shift q sig hs hqs, hexact, ← hsplit]

/-- An integer of at most 53 bits is its own nearest datum. -/
theorem f64Value_f64Nearest_one (neg : Bool) {n : Nat} (hn : n < 2 ^ 53)
    (hfin : isFinite (f64Nearest neg n 1)) :
    f64Value (f64Nearest neg n 1) = signFactor neg * (n : Rat) := by
  obtain ⟨hmag, hneg⟩ :=
    f64Make_parts neg _ (roundMag_binary64_lt_two_pow (n * 2 ^ binary64.unitExp) 1)
  rw [isFinite_iff_mag, f64Nearest, hmag] at hfin
  rw [f64Nearest, f64Value_eq, hneg, f64Units, hmag,
    binary64.units_roundMag_of_lt binary64_ok hn _ hfin]
  push_cast
  rw [← mul_assoc]
  exact mul_div_cancel_right₀ _ (by positivity)

theorem signFactor_mul_natAbs (n : Int) :
    (signFactor (decide (n < 0)) : Rat) * (n.natAbs : Rat) = n := by
  rcases lt_or_ge n 0 with h | h
  · simp [signFactor, h, abs_of_neg]
  · simp [signFactor, h.not_gt, abs_of_nonneg h]

/-- Settles O37: the view is `f64Nearest` of the magnitude under the sign of `raw`, and a magnitude
of at most `2^31` fits in the significand. -/
theorem f64ViewIsTheNearestQuotient : Obligations.F64ViewIsTheNearestQuotient := by
  refine ⟨fun f hdiv hraw => ?_, fun _ _ _ _ => rfl⟩
  have hmag : f.raw.natAbs ≤ 2 ^ 31 := by
    rw [Int.abs_eq_natAbs] at hraw
    exact_mod_cast hraw
  have hbelow : (f.raw.natAbs : Rat) / f.div < 2 ^ 1024 - 2 ^ 970 :=
    calc (f.raw.natAbs : Rat) / f.div ≤ f.raw.natAbs :=
          div_le_self (Nat.cast_nonneg _) (by exact_mod_cast hdiv)
      _ ≤ 2 ^ 31 := by exact_mod_cast hmag
      _ < 2 ^ 1024 - 2 ^ 970 := by
          rw [← cast_two_pow_sub (by decide)]
          exact_mod_cast (by decide +kernel : 2 ^ 31 < 2 ^ 1024 - 2 ^ 970)
  have hnear := f64Nearest_isNearest (decide (f.raw < 0)) f.raw.natAbs hdiv hbelow
  rw [← mul_div_assoc, signFactor_mul_natAbs] at hnear
  refine ⟨hnear.1, hnear, fun hone => ?_⟩
  have hfin := hnear.1
  rw [hone] at hfin
  rw [f64view, hone, f64Value_f64Nearest_one _ (by omega) hfin, signFactor_mul_natAbs]

end Sys2Proof.Machine
end

section
/-!
PROOFS for `60_exceptions.md` (R200 to R209): there is no trap, and IllegalRequest is the answer of
the physical request decoder alone.
-/

namespace Sys2Proof.Machine

open Sys2Proof.Certificates

/-! ### No trap (R209) -/

/-- Settles O45: a reset and an event at the port give a next state, and so does the answer of every
instruction. -/
theorem stepNeverStops : Obligations.StepNeverStops := exists_step_eq_next

/-! ### A payload raises ValueOutOfRange alone (R203) -/

/-- The computation raises no error but ValueOutOfRange. -/
def raisesOnlyValues {α : Type} (c : Result α) : Prop :=
  (∃ field, c = raiseValue field) ∨ ∃ v, c = .ok v

theorem raisesOnlyValues_scaledInt32 (x : F64) (F : Nat) (field : ParamField) :
    raisesOnlyValues (scaledInt32 x F field) :=
  (scaledInt32_eq_raise_or_ok x F field).imp_left fun h => ⟨field, h⟩

theorem raisesOnlyValues_float32 (x : F64) (field : ParamField) :
    raisesOnlyValues (float32 x field) :=
  (float32_eq_raise_or_ok x field).imp_left fun h => ⟨field, h⟩

theorem raisesOnlyValues_map {α β : Type} {c : Result α} (h : raisesOnlyValues c) (f : α → β) :
    raisesOnlyValues (c.map f) := by
  rcases h with ⟨field, rfl⟩ | ⟨v, rfl⟩
  · exact .inl ⟨field, rfl⟩
  · exact .inr ⟨f v, rfl⟩

theorem raisesOnlyValues_bodyPositionFloat (pos : F64) (vel : Option F64) :
    raisesOnlyValues (bodyPositionFloat pos vel) := by
  by_cases hpos : overflows32 pos
  · exact .inl ⟨.pos, bodyPositionFloat_of_overflows32 hpos vel⟩
  · cases vel with
    | none => exact .inr ⟨_, bodyPositionFloat_of_no_velocity hpos rfl⟩
    | some v =>
      by_cases hvel : strictlyPositive v
      · rw [bodyPositionFloat_of_velocity hpos hvel]
        exact raisesOnlyValues_map (raisesOnlyValues_float32 v .vel) _
      · have hnone := positiveVelocity_of_not_strictlyPositive hvel
        exact .inr ⟨_, bodyPositionFloat_of_no_velocity hpos hnone⟩

/-- The row of a command runs ENCODE on a payload that raises ValueOutOfRange alone. -/
theorem exec_encodeInstr_raisesOnlyValues (node : Int) (c : Command) :
    ∃ body : Result Memory, raisesOnlyValues body ∧
      ∀ s, exec (encodeInstr node c) s = answer (encodeFrame node (commandKind c) body) s := by
  have hint (x : F64) (F : Nat) (field : ParamField) :
      raisesOnlyValues (bodyI32 (scaledInt32 x F field)) :=
    raisesOnlyValues_map (raisesOnlyValues_scaledInt32 x F field) _
  have hfloat (x : F64) (field : ParamField) : raisesOnlyValues (bodyF32 (float32 x field)) :=
    raisesOnlyValues_map (raisesOnlyValues_float32 x field) _
  cases c with
  | setCurrent x => exact ⟨_, hint x _ _, fun _ => rfl⟩
  | setRpm x => exact ⟨_, hint x _ _, fun _ => rfl⟩
  | setPosition x => exact ⟨_, hint x _ _, fun _ => rfl⟩
  | setKp x => exact ⟨_, hfloat x _, fun _ => rfl⟩
  | setKi x => exact ⟨_, hfloat x _, fun _ => rfl⟩
  | setKd x => exact ⟨_, hfloat x _, fun _ => rfl⟩
  | setPositionFloat x v => exact ⟨_, raisesOnlyValues_bodyPositionFloat x v, fun _ => rfl⟩
  | setVelocity x => exact ⟨_, hfloat x _, fun _ => rfl⟩
  | setAcceleration x => exact ⟨_, hfloat x _, fun _ => rfl⟩
  | setDeceleration x => exact ⟨_, hfloat x _, fun _ => rfl⟩
  | setStoredPosition x b =>
    exact ⟨_, raisesOnlyValues_map (raisesOnlyValues_float32 x .pos) _, fun _ => rfl⟩

/-! ### No typed request is answered IllegalRequest (R200 to R205) -/

/-- The response is not an IllegalRequest error. -/
def notIllegalRequest : Response → Prop
  | .error kind _ => kind ≠ .illegalRequest
  | _ => True

theorem notIllegalRequest_raiseRange (operand : RangeOperand) (n : Int) :
    notIllegalRequest (resultResponse (raiseRange operand n)) :=
  (nofun : ErrorKind.rangeError ≠ .illegalRequest)

theorem notIllegalRequest_compose (node typeId : Int) :
    notIllegalRequest (resultResponse ((composeIdent node typeId).map Response.ident)) := by
  rcases composeIdent_cases node typeId with ⟨-, hc⟩ | ⟨-, -, hc⟩ | ⟨-, -, hc⟩
  · rw [hc]
    exact notIllegalRequest_raiseRange .node node
  · rw [hc]
    exact notIllegalRequest_raiseRange .typeId typeId
  · rw [hc]
    exact trivial

theorem notIllegalRequest_encodeFrame (node : Int) (k : CommandKind) {body : Result Memory}
    (h : raisesOnlyValues body) :
    notIllegalRequest (resultResponse (encodeFrame node k body)) := by
  rcases encodeFrame_cases node k body with ⟨-, hc⟩ | ⟨-, -, e, he, hc⟩ | ⟨-, -, m, -, hc⟩
  · rw [hc]
    exact notIllegalRequest_raiseRange .node node
  · rcases h with ⟨field, rfl⟩ | ⟨v, rfl⟩
    · rw [hc, ← Except.error.inj he]
      exact (nofun : ErrorKind.valueOutOfRange ≠ .illegalRequest)
    · exact absurd he nofun
  · rw [hc]
    exact trivial

theorem notIllegalRequest_decodeRecord (k : StatusKind) (p : List Byte)
    (layout : TelemetryRecord) :
    notIllegalRequest (resultResponse (decodeRecord k p layout)) := by
  rcases decodeRecord_cases k p layout with ⟨-, hc⟩ | ⟨-, hc⟩
  · rw [hc]
    exact (nofun : ErrorKind.formatError ≠ .illegalRequest)
  · rw [hc]
    exact trivial

/-- A typed request is answered, and never with IllegalRequest. -/
theorem exec_requestInstr_delivers_notIllegalRequest (r : Request) :
    ∃ a : Response, notIllegalRequest a ∧
      ∀ s, exec (requestInstr r) s = .next (deliver a s) := by
  cases r with
  | compose node typeId => exact ⟨_, notIllegalRequest_compose node typeId, fun _ => rfl⟩
  | decompose d => exact ⟨.fields _ _, trivial, fun _ => rfl⟩
  | encode node c =>
    obtain ⟨body, hbody, hexec⟩ := exec_encodeInstr_raisesOnlyValues node c
    exact ⟨_, notIllegalRequest_encodeFrame node (commandKind c) hbody, hexec⟩
  | decode d p =>
    rw [requestInstr]
    cases h : statusKindOf (typeIdField d) with
    | some k =>
      rw [decodeInstr_of_some p h]
      exact ⟨_, notIllegalRequest_decodeRecord k p _, exec_rowOf k _ _ p⟩
    | none =>
      rw [decodeInstr_of_none p h]
      exact ⟨.noRecord _ _, trivial, exec_noRecord _ _ _ p⟩

/-! ### Where IllegalRequest comes from (R74, R204) -/

theorem takeInput_physical_of_error {w : Nat} {p : PhysRequest w} {k : BitVec 8} (s : State)
    (h : physRequest p = .error (.illegalKind k)) :
    takeInput (.physical w p) s = deliver (illegalResponse k) s := by
  simp [takeInput, h]

theorem eq_of_deliver_responses {a b : Response} {s : State}
    (h : (deliver a s).responses = s.responses ++ [b]) : a = b := by
  rw [deliver_responses] at h
  exact List.singleton_inj.1 (List.append_cancel_left h)

/-- An event answered IllegalRequest is a physical request the decoder rejects. -/
theorem physical_of_takeInput_illegalRequest {e : Input} {s : State} {info : ErrorInfo}
    (h : (takeInput e s).responses = s.responses ++ [.error .illegalRequest info]) :
    ∃ (w : Nat) (p : PhysRequest w), e = .physical w p ∧
      physRequest p = .error (.illegalKind p.kind) ∧ info = .illegalInfo p.kind := by
  rcases takeInput_cases e s with ⟨r, ht⟩ | ⟨w, p, k, he, hp, ht⟩ | ⟨-, ht⟩ | ⟨-, ht⟩
  · rw [ht, accept_responses] at h
    simp at h
  · obtain ⟨-, rfl⟩ := physRequest_eq_error_iff.1 hp
    rw [ht] at h
    exact ⟨w, p, he, hp, (Response.error.inj (eq_of_deliver_responses h)).2.symm⟩
  · rw [ht, takeReset_responses] at h
    simp at h
  · rw [ht] at h
    simp at h

/-- A step that delivers IllegalRequest is the step of an idle block that takes its next event. -/
theorem idle_of_step_illegalRequest {s t : State} {info : ErrorInfo} (hstep : step s = .next t)
    (h : t.responses = s.responses ++ [.error .illegalRequest info]) :
    s.inflight = none ∧ t = takeNextInput s := by
  rcases step_cases s with ⟨rest, -, hs⟩ | ⟨-, r, -, hs⟩ | ⟨-, hslot, hs⟩
  · cases hs.symm.trans hstep
    simp at h
  · obtain ⟨a, ha, hexec⟩ := exec_requestInstr_delivers_notIllegalRequest r
    cases (hs.trans (hexec s)).symm.trans hstep
    rw [eq_of_deliver_responses h] at ha
    exact absurd rfl ha
  · exact ⟨hslot, Host.Outcome.next.inj (hstep.symm.trans hs)⟩

/-- Settles O43: the decoder rejects such a request and the port answers it; no reset, no typed
request and no other event is answered so. -/
theorem illegalKindIsAnsweredInBand : Obligations.IllegalKindIsAnsweredInBand := by
  constructor
  · intro s w p rest hslot hport hop hkind
    have hreject := physRequest_eq_error_iff.2 ⟨⟨hop, hkind⟩, rfl⟩
    rw [step_of_idle_cons hslot hport, takeInput_physical_of_error _ hreject, deliver,
      illegalResponse, hslot]
  · intro s t info hstep h
    obtain ⟨hslot, rfl⟩ := idle_of_step_illegalRequest hstep h
    cases hport : s.inputs with
    | nil =>
      rw [takeNextInput_nil hport] at h
      simp at h
    | cons e rest =>
      rw [takeNextInput_cons hport] at h
      obtain ⟨w, p, rfl, hreject, hinfo⟩ := physical_of_takeInput_illegalRequest h
      obtain ⟨⟨hop, hkind⟩, -⟩ := physRequest_eq_error_iff.1 hreject
      exact ⟨hslot, w, p, rest, rfl, hop, hkind, hinfo⟩

end Sys2Proof.Machine
end

section
/-!
PROOFS for `70_reset_and_hazards.md` (R240, R243): a reset empties the slot unanswered, and the
block answers only what was asked.
-/

namespace Sys2Proof.Machine

open Sys2Proof.Certificates

/-! ### A reset next in line (R240) -/

/-- Settles O39: the first case of `step_cases` is the reset, and the other two have none next. -/
theorem resetDiscardsTheRequest : Obligations.ResetDiscardsTheRequest := by
  intro s rest hport
  have hreset : resetAsserted s = true := (resetAsserted_eq s).2 ⟨rest, hport⟩
  rcases step_cases s with ⟨rest', hport', hs⟩ | ⟨hnone, -⟩ | ⟨hnone, -⟩
  · obtain ⟨-, rfl⟩ := List.cons.inj (hport.symm.trans hport')
    exact hs
  · exact absurd hreset (Bool.eq_false_iff.1 hnone)
  · exact absurd hreset (Bool.eq_false_iff.1 hnone)

/-! ### What a step can answer (R243) -/

/-- An event delivers nothing, or it is a physical ENCODE whose kind is outside the Command table,
and it is answered. -/
theorem takeInput_silent_or_illegal (e : Input) (s : State) :
    (takeInput e s).responses = s.responses ∨
    ∃ (w : Nat) (p : PhysRequest w), e = .physical w p ∧ p.op = 2#2 ∧
      p.kind.toNat ∉ commandIds ∧ takeInput e s = deliver (illegalResponse p.kind) s := by
  rcases takeInput_cases e s with ⟨r, ht⟩ | ⟨w, p, k, he, hp, ht⟩ | ⟨-, ht⟩ | ⟨-, ht⟩
  · exact .inl (by rw [ht, accept_responses])
  · obtain ⟨⟨hop, hkind⟩, rfl⟩ := physRequest_eq_error_iff.1 hp
    exact .inr ⟨w, p, he, hop, hkind, ht⟩
  · exact .inl (by rw [ht, takeReset_responses])
  · exact .inl (by rw [ht])

/-- Settles O47, by the cases of a step: a reset is silent, a request in flight is answered once,
and an idle block answers the illegal ENCODE at its port and no other event. -/
theorem onlyRequestsAreAnswered : Obligations.OnlyRequestsAreAnswered := by
  intro s t hstep
  rcases step_cases s with ⟨rest, -, hs⟩ | ⟨-, r, hslot, hs⟩ | ⟨-, hslot, hs⟩
  · cases hs.symm.trans hstep
    exact .inl (takeReset_responses _)
  · obtain ⟨a, hexec⟩ := exec_delivers (requestInstr r)
    cases (hs.trans (hexec s)).symm.trans hstep
    exact .inr ⟨a, deliver_responses a s, deliver_inflight a s,
      .inl (Option.isSome_of_eq_some hslot)⟩
  · cases hs.symm.trans hstep
    cases hport : s.inputs with
    | nil => exact .inl (by rw [takeNextInput_nil hport])
    | cons e rest =>
      rw [takeNextInput_cons hport]
      rcases takeInput_silent_or_illegal e { s with inputs := rest } with
        hsilent | ⟨w, p, rfl, hop, hkind, ht⟩
      · exact .inl hsilent
      · rw [ht]
        exact .inr ⟨illegalResponse p.kind, deliver_responses _ _, deliver_inflight _ _,
          .inr ⟨hslot, w, p, rest, rfl, hop, hkind⟩⟩

end Sys2Proof.Machine
end
